-- ==== Sys2Proof/Word.lean ====
section
/-! DEFINITION. The word types of the core: what spec/ treats as bits (00_scope.md R9, R10; 10_state.md). -/

namespace Sys2Proof

/-- An 8-bit value: a general register, a timer, a memory cell (R7). -/
abbrev Byte := BitVec 8

/-- A 16-bit value: an instruction word, `I`, `PC`, a call-stack entry (R7). -/
abbrev Word := BitVec 16

/-- One 4-bit nibble of an instruction word (R10, R13). -/
abbrev Nibble := BitVec 4

/-- The 12-bit address field `nnn` of an instruction word (R10, R73). -/
abbrev Addr12 := BitVec 12

/-- The index of a general register `V[0]`..`V[0xF]` (R20). -/
abbrev Reg := Fin 16

/-- The index of a keypad key, `0..15` (R34). -/
abbrev Key := Fin 16

end Sys2Proof
end

