-- ==== Sys2Proof/Config.lean ====
section
/-! DEFINITION. The named parameters of the model (00_scope.md R8) and its free values. The policies, the font and the timer period are held by
the machine (`State.policies`), so that a statement over every state quantifies over them; spec/'s defaults for them are in
Sys2Proof/Machine/Params.lean. -/

namespace Sys2Proof

/-- `P_SUB_WRAP`: the result of SUB and SUBN on a borrow (42_alu.md R169). -/
inductive SubWrap where
  /-- `0xFF - d`, the formula the source reports. -/
  | observed
  /-- `0x100 - d`, the 8-bit wrap-around difference. -/
  | modular
  deriving DecidableEq, Repr

/-- `P_INDEX_ADVANCE`: what Fx55 and Fx65 leave in `I` (43_index_memory.md R194). -/
inductive IndexAdvance where
  | unchanged
  | advance
  deriving DecidableEq, Repr

/-- `P_COLLISION`: which destination pixels of a draw count as a collision (44_display.md R211). -/
inductive CollisionTest where
  | litBits
  | allBits
  deriving DecidableEq, Repr

/-- `P_BNNN`: whether class 0xB is JP V0, nnn or unknown (30_encoding.md R77). -/
inductive BnnnPolicy where
  | jumpV0
  | unrecognized
  deriving DecidableEq, Repr

/-- The 80 glyph bytes `P_FONT` (10_state.md R32). -/
abbrev Font := Vector Byte 80

/-- A positive duration, in seconds (R8): an exact rational (10_state.md R37). -/
abbrev Period := { d : Rat // 0 < d }

/-- The timer period, the policies of R8 and the font: arguments of the model, fixed for the whole run (10_state.md R39,
40_execution_engine.md R121, 43_index_memory.md R194). -/
structure Policies where
  /-- `P_TIMER_PERIOD`. -/
  timerPeriod : Period
  /-- `P_SUB_WRAP`. -/
  subWrap : SubWrap
  /-- `P_INDEX_ADVANCE`. -/
  indexAdvance : IndexAdvance
  /-- `P_COLLISION`. -/
  collision : CollisionTest
  /-- `P_BNNN`. -/
  bnnn : BnnnPolicy
  /-- `P_FONT`. -/
  font : Font
  deriving DecidableEq, Repr

/-- FREE VALUE (42_alu.md R175): the byte that the `n`-th draw of a run returns. Nothing constrains it. -/
opaque Config.randomByte : Nat → Byte

/-- OPEN (40_execution_engine.md R121): the numerator of `P_CYCLE_PERIOD`, less one. -/
opaque Config.cyclePeriodNum : Nat

/-- OPEN (40_execution_engine.md R121): the denominator of `P_CYCLE_PERIOD`, less one. -/
opaque Config.cyclePeriodDen : Nat

/-- `P_CYCLE_PERIOD` in seconds: a positive rational that nothing else constrains (R8, R121). -/
def Config.cyclePeriod : Rat := ((Config.cyclePeriodNum : Rat) + 1) / ((Config.cyclePeriodDen : Rat) + 1)

/-- OPEN, host side (40_execution_engine.md R128): the entries of `P_KEYMAP`, the layout table from host key symbols (named by
numbers) to keypad indices. -/
opaque Config.keymapTable : List (Nat × Key)

/-- `P_KEYMAP`: the index that the first entry for a host key symbol gives; `none` is an unmapped host key (R128). -/
def Config.keymap (symbol : Nat) : Option Key := (Config.keymapTable.find? (fun e => e.1 == symbol)).map (fun e => e.2)

/-- OPEN (40_execution_engine.md R131): `P_DEBUG_WINDOW`, the memory addresses shown by `read_debug_snapshot`. -/
opaque Config.debugWindow : List Nat

end Sys2Proof
end

