-- ==== Sys2Proof/Machine/Flags.lean ====
section
/-! DEFINITION. The results and flags of the instructions that define flag semantics (10_state.md R21, 42_alu.md), and the
decimal digits of LD B (43_index_memory.md R193). Each computes on unsigned numbers and narrows at the end. -/

namespace Sys2Proof.Machine

/-- A one-bit flag as the byte 1 or 0. -/
def flagByte (b : Bool) : Byte := if b then 1 else 0

/-- R168: the low byte of the 9-bit sum, and the carry. -/
def addCarry (a b : Byte) : Byte × Byte :=
  (BitVec.ofNat 8 ((a.toNat + b.toNat) % 256), flagByte (decide (a.toNat + b.toNat > 255)))

/-- R169, the function `sub`: the difference, and 1 when there is no borrow. -/
def subFlag (p : SubWrap) (lhs rhs : Byte) : Byte × Byte :=
  if lhs.toNat ≥ rhs.toNat then (BitVec.ofNat 8 (lhs.toNat - rhs.toNat), 1)
  else
    match p with
    | .observed => (BitVec.ofNat 8 (0xFF - (rhs.toNat - lhs.toNat)), 0)
    | .modular => (BitVec.ofNat 8 (0x100 - (rhs.toNat - lhs.toNat)), 0)

/-- R173: the value shifted right by one, and its old bit 0. -/
def shiftRight (a : Byte) : Byte × Byte := (a >>> 1, a &&& 1)

/-- R174: the value shifted left by one, and its old bit 7. -/
def shiftLeft (a : Byte) : Byte × Byte := (a <<< 1, (a >>> 7) &&& 1)

/-- R193: the hundreds, tens and ones digits of a byte. -/
def decimalDigits (a : Byte) : List Byte :=
  [BitVec.ofNat 8 (a.toNat / 100), BitVec.ofNat 8 (a.toNat / 10 % 10), BitVec.ofNat 8 (a.toNat % 10)]

end Sys2Proof.Machine
end

