-- ==== Sys2Proof/Machine/Params.lean ====
section
/-! DEFINITION. The default of each parameter of 00_scope.md R8 that has one. `State.reset` is the machine
constructed with them; every meaning takes the machine's own policies and no default. -/

namespace Sys2Proof.Params

/-- `P_TIMER_PERIOD`, default 1/60 second (R8, 40_execution_engine.md R121). -/
def timerPeriod : Period := ⟨1 / 60, by decide +kernel⟩

/-- `P_SUB_WRAP`, default `observed` (R8, 92_eei_decisions.md D13). -/
def subWrap : SubWrap := .observed

/-- `P_INDEX_ADVANCE`, default `unchanged` (R8, D15). -/
def indexAdvance : IndexAdvance := .unchanged

/-- `P_COLLISION`, default `lit_bits` (R8, D17). -/
def collision : CollisionTest := .litBits

/-- `P_BNNN`, default `jump_v0` (R8, D11). -/
def bnnn : BnnnPolicy := .jumpV0

/-- The glyphs of the digits 0 to 7, five rows each (10_state.md R32). -/
def fontLow : List Byte :=
  [0xF0, 0x90, 0x90, 0x90, 0xF0] ++
  [0x20, 0x60, 0x20, 0x20, 0x70] ++
  [0xF0, 0x10, 0xF0, 0x80, 0xF0] ++
  [0xF0, 0x10, 0xF0, 0x10, 0xF0] ++
  [0x90, 0x90, 0xF0, 0x10, 0x10] ++
  [0xF0, 0x80, 0xF0, 0x10, 0xF0] ++
  [0xF0, 0x80, 0xF0, 0x90, 0xF0] ++
  [0xF0, 0x10, 0x20, 0x40, 0x40]

/-- The glyphs of the digits 8 to F (10_state.md R32). -/
def fontHigh : List Byte :=
  [0xF0, 0x90, 0xF0, 0x90, 0xF0] ++
  [0xF0, 0x90, 0xF0, 0x10, 0xF0] ++
  [0xF0, 0x90, 0xF0, 0x90, 0x90] ++
  [0xE0, 0x90, 0xE0, 0x90, 0xE0] ++
  [0xF0, 0x80, 0x80, 0x80, 0xF0] ++
  [0xE0, 0x90, 0x90, 0x90, 0xE0] ++
  [0xF0, 0x80, 0xF0, 0x80, 0xF0] ++
  [0xF0, 0x80, 0xF0, 0x80, 0x80]

/-- `P_FONT`, default the conventional font of R32 (D19). -/
def font : Font := ⟨⟨fontLow ++ fontHigh⟩, rfl⟩

/-- The defaults of R8 together. -/
def defaults : Policies where
  timerPeriod := timerPeriod
  subWrap := subWrap
  indexAdvance := indexAdvance
  collision := collision
  bnnn := bnnn
  font := font

end Sys2Proof.Params
end

