-- ==== Sys2Proof/Syntax.lean ====
section
/-! DEFINITION. The instructions: one constructor per row of spec/opcode_table.json (30_encoding.md R80), with the operands of
its shape (R72). A nibble that the dispatcher ignores (`_` in R80's patterns) is kept as the operand `z`, so that the whole word
can be recovered from the instruction: the fault record of RET holds the word itself (60_exceptions.md R251). -/

namespace Sys2Proof

/-- An instruction of the core. -/
inductive Instr where
  /-- `0_E0` CLS (R210); `z` is the ignored `x` nibble. -/
  | cls (z : Nibble)
  /-- `0_EE` RET (R141); `z` is the ignored `x` nibble. -/
  | ret (z : Nibble)
  /-- `1nnn` JP nnn (R142). -/
  | jp (nnn : Addr12)
  /-- `2nnn` CALL nnn (R143). -/
  | call (nnn : Addr12)
  /-- `3xkk` SE Vx, kk (R145). -/
  | seImm (x : Reg) (kk : Byte)
  /-- `4xkk` SNE Vx, kk (R146). -/
  | sneImm (x : Reg) (kk : Byte)
  /-- `5xy_` SE Vx, Vy (R147); `z` is the ignored low nibble. -/
  | seReg (x y : Reg) (z : Nibble)
  /-- `6xkk` LD Vx, kk (R162). -/
  | ldImm (x : Reg) (kk : Byte)
  /-- `7xkk` ADD Vx, kk (R167). -/
  | addImm (x : Reg) (kk : Byte)
  /-- `8xy0` LD Vx, Vy (R163). -/
  | ldReg (x y : Reg)
  /-- `8xy1` OR Vx, Vy (R164). -/
  | orReg (x y : Reg)
  /-- `8xy2` AND Vx, Vy (R165). -/
  | andReg (x y : Reg)
  /-- `8xy3` XOR Vx, Vy (R166). -/
  | xorReg (x y : Reg)
  /-- `8xy4` ADD Vx, Vy (R168). -/
  | addReg (x y : Reg)
  /-- `8xy5` SUB Vx, Vy (R170). -/
  | sub (x y : Reg)
  /-- `8xy6` SHR Vx (R173); `y` is decoded and ignored (R172). -/
  | shr (x y : Reg)
  /-- `8xy7` SUBN Vx, Vy (R171). -/
  | subn (x y : Reg)
  /-- `8xyE` SHL Vx (R174); `y` is decoded and ignored (R172). -/
  | shl (x y : Reg)
  /-- `9xy_` SNE Vx, Vy (R148); `z` is the ignored low nibble. -/
  | sneReg (x y : Reg) (z : Nibble)
  /-- `Annn` LD I, nnn (R190). -/
  | ldI (nnn : Addr12)
  /-- `Bnnn` JP V0, nnn (R144), an instruction when `P_BNNN = jump_v0`. -/
  | jpV0 (nnn : Addr12)
  /-- `Cxkk` RND Vx, kk (R176). -/
  | rnd (x : Reg) (kk : Byte)
  /-- `Dxyn` DRW Vx, Vy, n (R212). -/
  | drw (x y : Reg) (n : Nibble)
  /-- `Ex9E` SKP Vx (R231). -/
  | skp (x : Reg)
  /-- `ExA1` SKNP Vx (R232). -/
  | sknp (x : Reg)
  /-- `Fx07` LD Vx, DT (R233). -/
  | ldVDt (x : Reg)
  /-- `Fx0A` LD Vx, K (R236). -/
  | ldVK (x : Reg)
  /-- `Fx15` LD DT, Vx (R234). -/
  | ldDt (x : Reg)
  /-- `Fx18` LD ST, Vx (R235). -/
  | ldSt (x : Reg)
  /-- `Fx1E` ADD I, Vx (R191). -/
  | addI (x : Reg)
  /-- `Fx29` LD F, Vx (R192). -/
  | ldF (x : Reg)
  /-- `Fx33` LD B, Vx (R193). -/
  | ldB (x : Reg)
  /-- `Fx55` LD [I], Vx (R195). -/
  | ldMemV (x : Reg)
  /-- `Fx65` LD Vx, [I] (R196). -/
  | ldVMem (x : Reg)
  /-- Any word of R78 (R105); `w` is that word, which the `UnknownOpcode` event reports. -/
  | unknown (w : Word)
  deriving DecidableEq, Repr

end Sys2Proof
end

