-- ==== Sys2Proof/Machine/State.lean ====
section
/-! DEFINITION. The state of the core as plain data: every piece of state of spec/10_state.md, the parameters the
machine was constructed with, the progress of the host's calls
(40_execution_engine.md), and the outputs the core gives the host. `State.reset` is the state after construction (R42). -/

namespace Sys2Proof.Machine

/-- The two typed faults of the spec (60_exceptions.md R251). Both are taken as an effect: the instruction ends in a NEXT
state whose macro-state is `Faulted` (R252). No step of this model ends in `Outcome.fault`. -/
inductive Fault where
  /-- Code 1. Raised by CALL when the stack holds 16 entries (R29, R143). Safe: the core stops as the spec says. -/
  | stackOverflow
  /-- Code 2. Raised by RET when the stack is empty (R30, R141). Safe: the core stops as the spec says. -/
  | stackUnderflow
  deriving DecidableEq, Repr

/-- Why a step has no next state. No instruction is refused; the two refusals about the host are calls for which the spec
says there is no move. -/
inductive Refusal where
  /-- An instruction without a meaning. No arm of `exec` raises it. Safe. -/
  | notModelled (mnemonic : String)
  /-- `advance(d)` with `d < 0`: "a negative `d` is not a duration and has no move in the model" (R123). Safe. -/
  | negativeDuration
  /-- `load_program` called again or after `advance`: outside the modelled host interface (R283, R133). Safe. -/
  | loadOutOfTurn
  deriving DecidableEq, Repr

/-- The fault record `{kind, PC_fetch, w}` (R251). -/
structure FaultRecord where
  kind : Fault
  pcFetch : Word
  word : Word
  deriving DecidableEq, Repr

/-- The macro-state `M` of the Execution Engine (10_state.md R36). -/
inductive MacroState where
  | running
  /-- Waiting for a key press that goes to `V[r]` (R35). -/
  | awaitingKey (r : Reg)
  /-- Stopped by a fault; absorbing (R253). -/
  | faulted (f : FaultRecord)
  deriving DecidableEq, Repr

/-- One slot of an `advance` call: an instruction cycle (R107) or a timer tick (R122). -/
inductive Slot where
  | cycle
  | tick
  deriving DecidableEq, Repr

/-- A boundary operation the host calls (40_execution_engine.md R120 to R133, 70_reset_and_hazards.md R282). -/
inductive HostCall where
  /-- `load_program(bytes)` (R282). -/
  | loadProgram (bytes : List Byte)
  /-- `advance(d)`, `d` in seconds (R123). `order` is the order of this call's cycles and ticks, which the spec leaves open
  (R125): each entry asks for the next slot of its kind; entries of a kind used up are skipped, and what `order` does not name
  runs last, cycles before ticks. -/
  | advance (d : Rat) (order : List Slot)
  /-- The core's own `key_down(k)` (R126). -/
  | keyDown (k : Key)
  /-- The core's own `key_up(k)` (R127). -/
  | keyUp (k : Key)
  /-- `key_down(host_key)`, translated through `P_KEYMAP` (R128). -/
  | hostKeyDown (symbol : Nat)
  /-- `key_up(host_key)`, translated through `P_KEYMAP` (R128). -/
  | hostKeyUp (symbol : Nat)
  /-- `read_display()` (R130). -/
  | readDisplay
  /-- `read_debug_snapshot()` (R131). -/
  | readDebugSnapshot
  deriving DecidableEq, Repr

/-- The display surface, one bit per pixel (R7, R33): 32 rows of 64 pixels. Bit `x` of row `y` is `Disp[x][y]`, 1 lit; a draw
XORs bits into it. -/
abbrev Display := Vector (BitVec 64) 32

/-- The 4096 memory cells (20_memory.md R50) as the list of the cells that differ from their content at construction, addresses
strictly rising. `Memory.wf` in Ops.lean says the form, `Memory.resetByte` what an unlisted cell reads as. -/
abbrev Memory := List Host.Cell

/-- What `read_debug_snapshot` returns (R131); `window` pairs each address of `P_DEBUG_WINDOW` with its cell. -/
structure Snapshot where
  v : Vector Byte 16
  i : Word
  window : List (Nat × Byte)
  stack : List Word
  pc : Word
  dt : Byte
  st : Byte
  mode : MacroState
  deriving DecidableEq, Repr

/-- What the core gives the host (R105, R123, R130, R131, R133). No instruction can observe any of it. -/
inductive Output where
  /-- The event `UnknownOpcode(PC_fetch, w)` (R105). -/
  | unknownOpcode (pcFetch word : Word)
  /-- The redraw flag an `advance` call returns (R124). -/
  | redrawFlag (redraw : Bool)
  /-- Whether `load_program` took the program (`false`: refused) (R282). -/
  | loadResult (accepted : Bool)
  /-- The copy `read_display` returns (R130). -/
  | displayCopy (disp : Display)
  /-- The snapshot `read_debug_snapshot` returns (R131). -/
  | debugSnapshot (snap : Snapshot)
  deriving DecidableEq, Repr

/-- The state of the machine. -/
structure State where
  /-- The general registers `V[0]`..`V[0xF]` (R20); `V[0xF]` is the flag register (R21). -/
  v : Vector Byte 16
  /-- The index register `I` (R22). -/
  i : Word
  /-- The program counter `PC` (R23, R24). -/
  pc : Word
  /-- The delay timer `DT` (R25). -/
  dt : Byte
  /-- The sound timer `ST` (R26). -/
  st : Byte
  /-- The call stack `S`, oldest entry first; its depth `SP` is the list's length (R27). -/
  stack : List Word
  /-- The memory (R50). -/
  mem : Memory
  /-- The display surface `Disp` (R33). -/
  disp : Display
  /-- The keypad state `Key` (R34). -/
  key : Vector Bool 16
  /-- The macro-state `M` (R36), the Await-Key condition (R35) and the fault record (R251) in it. -/
  mode : MacroState
  /-- The time not yet used for a whole cycle, in seconds (R37). -/
  cycleAcc : Rat
  /-- The time not yet used for a whole tick, in seconds (R37). -/
  timerAcc : Rat
  /-- The redraw flag of the `advance` call in progress (R38). -/
  redraw : Bool
  /-- The parameters the machine was constructed with (00_scope.md R8). No program can read or change them (R39); no step does. -/
  policies : Policies
  /-- The model's own: the slots of the `advance` call in progress that are still to run, `none` between calls (R123). -/
  slots : Option (List Slot)
  /-- The model's own: the host's calls still to come, in order (R120). -/
  host : List HostCall
  /-- The model's own: `load_program` may still be called (R283). -/
  mayLoad : Bool
  /-- The model's own: how many random bytes have been drawn (R175). -/
  draws : Nat
  /-- The model's own: what the core has given the host so far, oldest first (R291). -/
  outputs : List Output
  deriving DecidableEq, Repr

/-- The machine after construction with the parameters `p` (10_state.md R42, 70_reset_and_hazards.md R280, R281). -/
def State.construct (p : Policies) : State where
  v := Vector.replicate 16 0
  i := 0
  pc := 0x200
  dt := 0
  st := 0
  stack := []
  mem := []
  disp := Vector.replicate 32 0
  key := Vector.replicate 16 false
  mode := .running
  cycleAcc := 0
  timerAcc := 0
  redraw := false
  policies := p
  slots := none
  host := []
  mayLoad := true
  draws := 0
  outputs := []

/-- The machine after construction with the defaults of R8. -/
def State.reset : State := State.construct Params.defaults

end Sys2Proof.Machine
end

