-- ==== Sys2Proof/Machine/Ops.lean ====
section
/-! DEFINITION. The named operations over memory, registers, the call stack, the display and the outputs, and raising a fault:
the primitives of 00_scope.md R11. -/

namespace Sys2Proof.Machine

/-! ### Memory (20_memory.md) -/

/-- What a cell holds after construction: `P_FONT` in 0x000..0x04F, zero elsewhere (R31, R42). An unlisted cell reads as this. -/
def Memory.resetByte (f : Font) (c : Nat) : Byte := if h : c < 80 then f[c] else 0

/-- The cell an address reaches: `a & 0xFFF` (R52). -/
def cellOf (a : Nat) : Nat := a % 0x1000

/-- The byte in cell `c`, where the font is `f`. -/
def Memory.get (f : Font) (m : Memory) (c : Nat) : Byte :=
  match m with
  | [] => Memory.resetByte f c
  | (k, b) :: rest => if k = c then b else Memory.get f rest c

/-- `m` without an entry for cell `c`. -/
def Memory.forget (m : Memory) (c : Nat) : Memory :=
  match m with
  | [] => []
  | (k, x) :: rest => if k = c then Memory.forget rest c else (k, x) :: Memory.forget rest c

/-- `m` with the entry of cell `c` placed before the first cell above it. -/
def Memory.enter (m : Memory) (c : Nat) (b : Byte) : Memory :=
  match m with
  | [] => [(c, b)]
  | (k, x) :: rest => if c < k then (c, b) :: (k, x) :: rest else (k, x) :: Memory.enter rest c b

/-- `m` with byte `b` in cell `c`: listed exactly when it differs from what an unlisted cell reads as. -/
def Memory.put (f : Font) (m : Memory) (c : Nat) (b : Byte) : Memory :=
  if b = Memory.resetByte f c then m.forget c else (m.forget c).enter c b

/-- The cells listed from `lo` up: rising addresses below 4096, none holding what an unlisted cell reads as. -/
def Memory.wfFrom (f : Font) (lo : Nat) : Memory → Bool
  | [] => true
  | (k, b) :: rest =>
    decide (lo ≤ k) && decide (k < 0x1000) && decide (b ≠ Memory.resetByte f k) && Memory.wfFrom f (k + 1) rest

/-- The canonical form of memory: equal memories are equal lists. -/
def Memory.wf (f : Font) (m : Memory) : Bool := Memory.wfFrom f 0 m

/-- `MemRead(a, 1)` (R52): no access faults. -/
def State.readMem (s : State) (a : Nat) : Byte := s.mem.get s.policies.font (cellOf a)

/-- `MemWrite(a, 1, b)` (R52, R53): no access faults and no cell is protected. -/
def State.writeMem (s : State) (a : Nat) (b : Byte) : State := { s with mem := s.mem.put s.policies.font (cellOf a) b }

/-- Bytes written to consecutive addresses from `a` up, in order, each address masked (R54, R57). -/
def State.writeBytes (s : State) (a : Nat) : List Byte → State
  | [] => s
  | b :: bs => (s.writeMem a b).writeBytes (a + 1) bs

/-! ### Registers (10_state.md) -/

/-- The index of the flag register VF (R21). -/
def VF : Reg := 15

/-- `V[r]` (R20). -/
def State.getV (s : State) (r : Reg) : Byte := s.v[r]

/-- `V[r] <- b` (R20). -/
def State.setV (s : State) (r : Reg) (b : Byte) : State := { s with v := s.v.set r b }

/-- The result to `V[x]`, then the flag to VF (42_alu.md R161): with `x = 0xF` the flag stays. -/
def State.setResultFlag (s : State) (x : Reg) (result flag : Byte) : State := (s.setV x result).setV VF flag

/-- `I <- a` (R22). -/
def State.setI (s : State) (a : Word) : State := { s with i := a }

/-- `PC <- a` (R23, R24). -/
def State.setPc (s : State) (a : Word) : State := { s with pc := a }

/-- `PC <- (PC + 2) mod 0x10000`: the pre-increment (R103) and the extra step of a taken skip (R140). -/
def State.incPc (s : State) : State := { s with pc := s.pc + 2 }

/-- The address the running instruction was fetched from: `PC` was advanced by 2 since (R103). -/
def State.pcFetch (s : State) : Word := s.pc - 2

/-- `DT <- b` (R25). -/
def State.setDt (s : State) (b : Byte) : State := { s with dt := b }

/-- `ST <- b` (R26). -/
def State.setSt (s : State) (b : Byte) : State := { s with st := b }

/-- `M <- m` (R36). -/
def State.setMode (s : State) (m : MacroState) : State := { s with mode := m }

/-- `Key[k] <- b` (R34). -/
def State.setKey (s : State) (k : Key) (b : Bool) : State := { s with key := s.key.set k b }

/-! ### Call stack and faults (10_state.md R29, R30; 60_exceptions.md) -/

/-- The depth the call stack may reach (R27). -/
def maxDepth : Nat := 16

/-- `S` replaced. -/
def State.setStack (s : State) (l : List Word) : State := { s with stack := l }

/-- `Push(a)`; `none` is the fault `StackOverflow` (R29). -/
def State.push (s : State) (a : Word) : Option State :=
  if s.stack.length < maxDepth then some (s.setStack (s.stack ++ [a])) else none

/-- `Pop()`: the last entry and the state without it; `none` is the fault `StackUnderflow` (R30). -/
def State.pop (s : State) : Option (Word × State) :=
  match s.stack.getLast? with
  | none => none
  | some a => some (a, s.setStack s.stack.dropLast)

/-- The code of a fault (R251). -/
def Fault.code : Fault → Nat
  | .stackOverflow => 1
  | .stackUnderflow => 2

/-- `raise Fault(kind)` by the word `w` (R252): `M` becomes `Faulted` with the record, and nothing else changes. -/
def State.raiseFault (s : State) (kind : Fault) (w : Word) : State :=
  s.setMode (.faulted ⟨kind, s.pcFetch, w⟩)

/-- Whether `M` is `Faulted`. -/
def State.isFaulted (s : State) : Bool :=
  match s.mode with
  | .faulted _ => true
  | .running => false
  | .awaitingKey _ => false

/-! ### Display (10_state.md R33) and outputs (40_execution_engine.md R105, R124) -/

/-- Every pixel false. -/
def Display.blank : Display := Vector.replicate 32 0

/-- `Disp[x][y]`. -/
def Display.get (d : Display) (x : Fin 64) (y : Fin 32) : Bool := d[y].getLsbD x.val

/-- The display row in which only pixel `x` may be lit, and is when `b`. -/
def pixelBit (x : Fin 64) (b : Bool) : BitVec 64 := if b then BitVec.twoPow 64 x.val else 0

/-- `Disp` replaced. -/
def State.setDisp (s : State) (d : Display) : State := { s with disp := d }

/-- The redraw flag of the call in progress. -/
def State.setRedraw (s : State) (b : Bool) : State := { s with redraw := b }

/-- `request_redraw()` (R124). -/
def State.requestRedraw (s : State) : State := s.setRedraw true

/-- An output to the host. -/
def State.emit (s : State) (o : Output) : State := { s with outputs := s.outputs ++ [o] }

/-- One more random byte has been drawn (R175). -/
def State.countDraw (s : State) : State := { s with draws := s.draws + 1 }

end Sys2Proof.Machine
end

