-- ==== Sys2Proof/Machine/Operands.lean ====
section
/-! DEFINITION. What the operands of the instructions name: addresses, the cells at `I`, keys and random bytes. -/

namespace Sys2Proof.Machine

/-- The 12-bit address field as the 16-bit value that `PC` or `I` receives (30_encoding.md R73). -/
def addrWord (nnn : Addr12) : Word := nnn.setWidth 16

/-- A register's byte as a 16-bit value. -/
def byteWord (b : Byte) : Word := b.setWidth 16

/-- The address `I + k`, before masking (20_memory.md R54). -/
def State.indexAddr (s : State) (k : Nat) : Nat := s.i.toNat + k

/-- The address of the glyph of the low nibble of `b`: `5 * (b & 0x0F)` (43_index_memory.md R192). -/
def glyphAddr (b : Byte) : Word := BitVec.ofNat 16 (5 * (b.toNat % 16))

/-- `I` after Fx55 or Fx65 with last register `x`, by `P_INDEX_ADVANCE` (43_index_memory.md R194). -/
def advancedIndex (p : IndexAdvance) (a : Word) (x : Reg) : Word :=
  match p with
  | .unchanged => a
  | .advance => a + BitVec.ofNat 16 (x.val + 1)

/-- The registers `V[0]`..`V[x]`, in order (R195). -/
def State.regsUpTo (s : State) (x : Reg) : List Byte := (List.range (x.val + 1)).map (fun k => s.getV (Fin.ofNat 16 k))

/-- `V[0]`..`V[x]` loaded from the cells `I`..`I + x` (R196). `I` and memory do not change, so each byte is read as at the start. -/
def State.loadRegs (s : State) (x : Reg) : State :=
  (List.range (x.val + 1)).foldl (fun t k => t.setV (Fin.ofNat 16 k) (s.readMem (s.indexAddr k))) s

/-- The `n` sprite bytes at `I` (44_display.md R212). -/
def State.spriteBytes (s : State) (n : Nibble) : List Byte :=
  (List.range n.toNat).map (fun row => s.readMem (s.indexAddr row))

/-- `pressed(b)`: the key that `b` names is held; a value above 15 names none (45_timers_keypad.md R230). -/
def State.pressed (s : State) (b : Byte) : Bool :=
  if h : b.toNat < 16 then s.key[b.toNat] else false

/-- `draw_random()`: the free byte of this draw (42_alu.md R175). -/
def State.randomByte (s : State) : Byte := Config.randomByte s.draws

end Sys2Proof.Machine
end

