-- ==== Sys2Proof/Machine/Alu.lean ====
section
/-! DEFINITION. Register arithmetic, logic, shifts and random (42_alu.md). -/

namespace Sys2Proof.Machine

/-- R162: LD Vx, kk. -/
def execLdImm (x : Reg) (kk : Byte) (s : State) : Host.Outcome State Fault Refusal := .next (s.setV x kk)

/-- R163: LD Vx, Vy. -/
def execLdReg (x y : Reg) (s : State) : Host.Outcome State Fault Refusal := .next (s.setV x (s.getV y))

/-- R164: OR Vx, Vy. VF is not reset. -/
def execOrReg (x y : Reg) (s : State) : Host.Outcome State Fault Refusal := .next (s.setV x (s.getV x ||| s.getV y))

/-- R165: AND Vx, Vy. -/
def execAndReg (x y : Reg) (s : State) : Host.Outcome State Fault Refusal := .next (s.setV x (s.getV x &&& s.getV y))

/-- R166: XOR Vx, Vy. -/
def execXorReg (x y : Reg) (s : State) : Host.Outcome State Fault Refusal := .next (s.setV x (s.getV x ^^^ s.getV y))

/-- R167: ADD Vx, kk, modulo 256, no carry. -/
def execAddImm (x : Reg) (kk : Byte) (s : State) : Host.Outcome State Fault Refusal := .next (s.setV x (s.getV x + kk))

/-- R168: ADD Vx, Vy, with carry. -/
def execAddReg (x y : Reg) (s : State) : Host.Outcome State Fault Refusal :=
  .next (s.setResultFlag x (addCarry (s.getV x) (s.getV y)).1 (addCarry (s.getV x) (s.getV y)).2)

/-- R170: SUB Vx, Vy is `Vx - Vy`. -/
def execSub (x y : Reg) (s : State) : Host.Outcome State Fault Refusal :=
  .next (s.setResultFlag x (subFlag s.policies.subWrap (s.getV x) (s.getV y)).1
    (subFlag s.policies.subWrap (s.getV x) (s.getV y)).2)

/-- R171: SUBN Vx, Vy is `Vy - Vx`. -/
def execSubn (x y : Reg) (s : State) : Host.Outcome State Fault Refusal :=
  .next (s.setResultFlag x (subFlag s.policies.subWrap (s.getV y) (s.getV x)).1
    (subFlag s.policies.subWrap (s.getV y) (s.getV x)).2)

/-- R173: SHR Vx. The second register is decoded and ignored (R172). -/
def execShr (x _y : Reg) (s : State) : Host.Outcome State Fault Refusal :=
  .next (s.setResultFlag x (shiftRight (s.getV x)).1 (shiftRight (s.getV x)).2)

/-- R174: SHL Vx. The second register is decoded and ignored (R172). -/
def execShl (x _y : Reg) (s : State) : Host.Outcome State Fault Refusal :=
  .next (s.setResultFlag x (shiftLeft (s.getV x)).1 (shiftLeft (s.getV x)).2)

/-- R176: RND Vx, kk: a free byte, masked. -/
def execRnd (x : Reg) (kk : Byte) (s : State) : Host.Outcome State Fault Refusal :=
  .next ((s.setV x (s.randomByte &&& kk)).countDraw)

end Sys2Proof.Machine
end

