-- ==== Sys2Proof/Machine/Fields.lean ====
section
/-! DEFINITION. The fields of an instruction word (00_scope.md R10, 30_encoding.md R71), and a word put together from fields. -/

namespace Sys2Proof

/-- `c = w[15:12]`, the instruction class. -/
def fieldC (w : Word) : Nibble := w.extractLsb' 12 4

/-- `w[11:8]` as a nibble. -/
def nibbleX (w : Word) : Nibble := w.extractLsb' 8 4

/-- `w[7:4]` as a nibble. -/
def nibbleY (w : Word) : Nibble := w.extractLsb' 4 4

/-- `n = w[3:0]`. -/
def fieldN (w : Word) : Nibble := w.extractLsb' 0 4

/-- `x = w[11:8]`, the first register index. -/
def fieldX (w : Word) : Reg := (nibbleX w).toFin

/-- `y = w[7:4]`, the second register index. -/
def fieldY (w : Word) : Reg := (nibbleY w).toFin

/-- `kk = w[7:0]`. -/
def fieldKk (w : Word) : Byte := w.extractLsb' 0 8

/-- `nnn = w[11:0]`. -/
def fieldNnn (w : Word) : Addr12 := w.extractLsb' 0 12

/-- A register index as the nibble that names it. -/
def regNibble (r : Reg) : Nibble := BitVec.ofFin r

/-- The word of class `c` with the address field `nnn` (shape `Addr`, R72). -/
def wordAddr (c : Nibble) (nnn : Addr12) : Word := c ++ nnn

/-- The word of class `c` with the nibble `x` and the low byte `kk` (shapes `RegByte`, `Reg` and `None`, R72). -/
def wordByte (c x : Nibble) (kk : Byte) : Word := (c ++ x : BitVec 8) ++ kk

/-- The word of class `c` with the nibbles `x`, `y` and `n` (shapes `RegReg` and `RegRegNib`, R72). -/
def wordNibbles (c x y n : Nibble) : Word := (c ++ x : BitVec 8) ++ (y ++ n : BitVec 8)

/-- The word of two bytes, the first (at the lower address) bits 15 to 8: big-endian (20_memory.md R55). -/
def wordOfBytes (hi lo : Byte) : Word := hi ++ lo

/-- Bits 15 to 8 of a word. -/
def highByte (w : Word) : Byte := w.extractLsb' 8 8

/-- Bits 7 to 0 of a word. -/
def lowByte (w : Word) : Byte := w.extractLsb' 0 8

end Sys2Proof
end

