-- ==== Sys2Proof/WellFormed.lean ====
section
/-! DEFINITION. Which terms of `Instr` stand for a word of the instruction set: the operands' types bound every field (30_encoding.md
R73), so the two checks left are that an unknown instruction holds an unknown word (R78) and that JP V0, nnn exists (R77). -/

namespace Sys2Proof

/-- The low nibbles that select no operation in class 8 (R78, second item). -/
def unknownLow8 : List Nibble := [0x8, 0x9, 0xA, 0xB, 0xC, 0xD, 0xF]

/-- The low bytes that select an operation in class 0xF (R78, fifth item). -/
def knownLowF : List Byte := [0x07, 0x0A, 0x15, 0x18, 0x1E, 0x29, 0x33, 0x55, 0x65]

/-- R78: the words that no row of the opcode map covers, class by class, under the value `p` of `P_BNNN`. -/
def isUnknownWord (p : BnnnPolicy) (w : Word) : Bool :=
  if fieldC w = 0x0 then fieldKk w != 0xE0 && fieldKk w != 0xEE
  else if fieldC w = 0x8 then unknownLow8.contains (fieldN w)
  else if fieldC w = 0xB then decide (p = .unrecognized)
  else if fieldC w = 0xE then fieldKk w != 0x9E && fieldKk w != 0xA1
  else if fieldC w = 0xF then !knownLowF.contains (fieldKk w)
  else false

/-- Well-formedness under the value `p` of `P_BNNN`. -/
def Instr.wellFormedWith (p : BnnnPolicy) : Instr → Bool
  | .jpV0 _ => decide (p = .jumpV0)
  | .unknown w => isUnknownWord p w
  | .cls _ | .ret _ | .jp _ | .call _ | .seImm _ _ | .sneImm _ _ | .seReg _ _ _ | .ldImm _ _ | .addImm _ _
  | .ldReg _ _ | .orReg _ _ | .andReg _ _ | .xorReg _ _ | .addReg _ _ | .sub _ _ | .shr _ _ | .subn _ _ | .shl _ _
  | .sneReg _ _ _ | .ldI _ | .rnd _ _ | .drw _ _ _ | .skp _ | .sknp _ | .ldVDt _ | .ldVK _ | .ldDt _ | .ldSt _
  | .addI _ | .ldF _ | .ldB _ | .ldMemV _ | .ldVMem _ => true

/-- Well-formedness under the default of `P_BNNN`. -/
def Instr.wellFormed (i : Instr) : Bool := i.wellFormedWith Params.bnnn

end Sys2Proof
end

