-- ==== Sys2Proof/Decode.lean ====
section
/-! DEFINITION. The decoder of 30_encoding.md R81 and, after it, the encoder of the opcode map R80. -/

namespace Sys2Proof

/-- The line of R81 for class 0x0. -/
def decodeClass0 (w : Word) : Instr :=
  if fieldKk w = 0xE0 then .cls (nibbleX w)
  else if fieldKk w = 0xEE then .ret (nibbleX w)
  else .unknown w

/-- The lines of R81 for class 0x8. -/
def decodeClass8 (w : Word) : Instr :=
  match (fieldN w).toNat with
  | 0x0 => .ldReg (fieldX w) (fieldY w)
  | 0x1 => .orReg (fieldX w) (fieldY w)
  | 0x2 => .andReg (fieldX w) (fieldY w)
  | 0x3 => .xorReg (fieldX w) (fieldY w)
  | 0x4 => .addReg (fieldX w) (fieldY w)
  | 0x5 => .sub (fieldX w) (fieldY w)
  | 0x6 => .shr (fieldX w) (fieldY w)
  | 0x7 => .subn (fieldX w) (fieldY w)
  | 0xE => .shl (fieldX w) (fieldY w)
  | _ => .unknown w

/-- The line of R81 for class 0xE. -/
def decodeClassE (w : Word) : Instr :=
  if fieldKk w = 0x9E then .skp (fieldX w)
  else if fieldKk w = 0xA1 then .sknp (fieldX w)
  else .unknown w

/-- The lines of R81 for class 0xF. -/
def decodeClassF (w : Word) : Instr :=
  if fieldKk w = 0x07 then .ldVDt (fieldX w)
  else if fieldKk w = 0x0A then .ldVK (fieldX w)
  else if fieldKk w = 0x15 then .ldDt (fieldX w)
  else if fieldKk w = 0x18 then .ldSt (fieldX w)
  else if fieldKk w = 0x1E then .addI (fieldX w)
  else if fieldKk w = 0x29 then .ldF (fieldX w)
  else if fieldKk w = 0x33 then .ldB (fieldX w)
  else if fieldKk w = 0x55 then .ldMemV (fieldX w)
  else if fieldKk w = 0x65 then .ldVMem (fieldX w)
  else .unknown w

/-- R81: the instruction of a word, under the value `p` of `P_BNNN`. Total on every word (R74). -/
def decodeWith (p : BnnnPolicy) (w : Word) : Instr :=
  match (fieldC w).toNat with
  | 0x0 => decodeClass0 w
  | 0x1 => .jp (fieldNnn w)
  | 0x2 => .call (fieldNnn w)
  | 0x3 => .seImm (fieldX w) (fieldKk w)
  | 0x4 => .sneImm (fieldX w) (fieldKk w)
  | 0x5 => .seReg (fieldX w) (fieldY w) (fieldN w)
  | 0x6 => .ldImm (fieldX w) (fieldKk w)
  | 0x7 => .addImm (fieldX w) (fieldKk w)
  | 0x8 => decodeClass8 w
  | 0x9 => .sneReg (fieldX w) (fieldY w) (fieldN w)
  | 0xA => .ldI (fieldNnn w)
  | 0xB => if p = .jumpV0 then .jpV0 (fieldNnn w) else .unknown w
  | 0xC => .rnd (fieldX w) (fieldKk w)
  | 0xD => .drw (fieldX w) (fieldY w) (fieldN w)
  | 0xE => decodeClassE w
  | _ => decodeClassF w

/-- R81 under the default of `P_BNNN`. -/
def decode (w : Word) : Instr := decodeWith Params.bnnn w

/-- Why a list of bytes holds no instruction: R70 gives every instruction two bytes. -/
inductive DecodeError where
  /-- Fewer than two bytes are left. Fetch never meets this: it always reads two cells (R102). -/
  | truncated
  deriving DecidableEq, Repr

/-- The instruction at the head of a list of bytes, and the bytes after it (R55, R70), under the value `p` of `P_BNNN`. -/
def decodeBytesWith (p : BnnnPolicy) : List Byte → Except DecodeError (Instr × List Byte)
  | hi :: lo :: rest => .ok (decodeWith p (wordOfBytes hi lo), rest)
  | [] => .error .truncated
  | [_] => .error .truncated

/-- `decodeBytesWith` under the default of `P_BNNN`. -/
def decodeBytes (l : List Byte) : Except DecodeError (Instr × List Byte) := decodeBytesWith Params.bnnn l

/-- The opcode map R80 read from an instruction to its word. -/
def encode : Instr → Word
  | .cls z => wordByte 0x0 z 0xE0
  | .ret z => wordByte 0x0 z 0xEE
  | .jp nnn => wordAddr 0x1 nnn
  | .call nnn => wordAddr 0x2 nnn
  | .seImm x kk => wordByte 0x3 (regNibble x) kk
  | .sneImm x kk => wordByte 0x4 (regNibble x) kk
  | .seReg x y z => wordNibbles 0x5 (regNibble x) (regNibble y) z
  | .ldImm x kk => wordByte 0x6 (regNibble x) kk
  | .addImm x kk => wordByte 0x7 (regNibble x) kk
  | .ldReg x y => wordNibbles 0x8 (regNibble x) (regNibble y) 0x0
  | .orReg x y => wordNibbles 0x8 (regNibble x) (regNibble y) 0x1
  | .andReg x y => wordNibbles 0x8 (regNibble x) (regNibble y) 0x2
  | .xorReg x y => wordNibbles 0x8 (regNibble x) (regNibble y) 0x3
  | .addReg x y => wordNibbles 0x8 (regNibble x) (regNibble y) 0x4
  | .sub x y => wordNibbles 0x8 (regNibble x) (regNibble y) 0x5
  | .shr x y => wordNibbles 0x8 (regNibble x) (regNibble y) 0x6
  | .subn x y => wordNibbles 0x8 (regNibble x) (regNibble y) 0x7
  | .shl x y => wordNibbles 0x8 (regNibble x) (regNibble y) 0xE
  | .sneReg x y z => wordNibbles 0x9 (regNibble x) (regNibble y) z
  | .ldI nnn => wordAddr 0xA nnn
  | .jpV0 nnn => wordAddr 0xB nnn
  | .rnd x kk => wordByte 0xC (regNibble x) kk
  | .drw x y n => wordNibbles 0xD (regNibble x) (regNibble y) n
  | .skp x => wordByte 0xE (regNibble x) 0x9E
  | .sknp x => wordByte 0xE (regNibble x) 0xA1
  | .ldVDt x => wordByte 0xF (regNibble x) 0x07
  | .ldVK x => wordByte 0xF (regNibble x) 0x0A
  | .ldDt x => wordByte 0xF (regNibble x) 0x15
  | .ldSt x => wordByte 0xF (regNibble x) 0x18
  | .addI x => wordByte 0xF (regNibble x) 0x1E
  | .ldF x => wordByte 0xF (regNibble x) 0x29
  | .ldB x => wordByte 0xF (regNibble x) 0x33
  | .ldMemV x => wordByte 0xF (regNibble x) 0x55
  | .ldVMem x => wordByte 0xF (regNibble x) 0x65
  | .unknown w => w

/-- The two bytes of an instruction as memory holds them, the high byte first (R55). -/
def encodeBytes (i : Instr) : List Byte := [highByte (encode i), lowByte (encode i)]

/-- A table word of `nbits` bits as the 16-bit word it is the low part of. -/
def tableWord (nbits w : Nat) : Word := BitVec.ofNat 16 (w % 2 ^ min nbits 16)

/-- The instruction the decoder reads from a word numbered as spec/opcode_table.json numbers it, laid out big-endian, under the
default of `P_BNNN`. -/
def decodeTableWord (nbits w : Nat) : Option Instr :=
  match decodeBytes [highByte (tableWord nbits w), lowByte (tableWord nbits w)] with
  | .ok (i, _) => some i
  | .error _ => none

end Sys2Proof
end

