-- ==== Sys2Proof/Machine/ControlFlow.lean ====
section
/-! DEFINITION. Control transfer (41_control_flow.md). `PC` already holds `PC_fetch + 2` when a meaning starts (00_scope.md R12). -/

namespace Sys2Proof.Machine

/-- R140: the skip helper, under a condition. -/
def State.skipIf (s : State) (c : Bool) : State := if c then s.incPc else s

/-- R141: RET. An empty stack raises `StackUnderflow`. -/
def execRet (z : Nibble) (s : State) : Host.Outcome State Fault Refusal :=
  match s.pop with
  | some (a, t) => .next (t.setPc a)
  | none => .next (s.raiseFault .stackUnderflow (encode (.ret z)))

/-- R142: JP nnn. -/
def execJp (nnn : Addr12) (s : State) : Host.Outcome State Fault Refusal := .next (s.setPc (addrWord nnn))

/-- R143: CALL nnn. A full stack raises `StackOverflow`, and the jump is not taken. -/
def execCall (nnn : Addr12) (s : State) : Host.Outcome State Fault Refusal :=
  match s.push s.pc with
  | some t => .next (t.setPc (addrWord nnn))
  | none => .next (s.raiseFault .stackOverflow (encode (.call nnn)))

/-- R144: JP V0, nnn. The sum is a 16-bit value, not masked to 12 bits. -/
def execJpV0 (nnn : Addr12) (s : State) : Host.Outcome State Fault Refusal :=
  .next (s.setPc (addrWord nnn + byteWord (s.getV 0)))

/-- R145: SE Vx, kk. -/
def execSeImm (x : Reg) (kk : Byte) (s : State) : Host.Outcome State Fault Refusal :=
  .next (s.skipIf (decide (s.getV x = kk)))

/-- R146: SNE Vx, kk. -/
def execSneImm (x : Reg) (kk : Byte) (s : State) : Host.Outcome State Fault Refusal :=
  .next (s.skipIf (decide (s.getV x ≠ kk)))

/-- R147: SE Vx, Vy. -/
def execSeReg (x y : Reg) (s : State) : Host.Outcome State Fault Refusal :=
  .next (s.skipIf (decide (s.getV x = s.getV y)))

/-- R148: SNE Vx, Vy. -/
def execSneReg (x y : Reg) (s : State) : Host.Outcome State Fault Refusal :=
  .next (s.skipIf (decide (s.getV x ≠ s.getV y)))

end Sys2Proof.Machine
end

