-- ==== Sys2Proof/Machine/Draw.lean ====
section
/-! DEFINITION. Clear and sprite draw (44_display.md). -/

namespace Sys2Proof.Machine

/-- Whether a destination pixel counts as a collision by `P_COLLISION`: it was lit, and the sprite bit is 1 or every bit counts (R211). -/
def collides (p : CollisionTest) (old bit : Bool) : Bool := old && (bit || decide (p = .allBits))

/-- One pixel of a draw in its row of the display: XOR the sprite bit in, and gather the collision (the inner block of R212). -/
def plot (p : CollisionTest) (x : Fin 64) (bit : Bool) (acc : BitVec 64 × Bool) : BitVec 64 × Bool :=
  (acc.1 ^^^ pixelBit x bit, acc.2 || collides p (acc.1.getLsbD x.val) bit)

/-- The 8 columns of the sprite row `b`, bit 7 leftmost, from column `px` in the display row gathered so far (R212). -/
def plotRow (p : CollisionTest) (px : Nat) (b : Byte) (acc : BitVec 64 × Bool) : BitVec 64 × Bool :=
  (List.range 8).foldl (fun a col => plot p (Fin.ofNat 64 (px + col)) (b.getLsbD (7 - col)) a) acc

/-- The sprite row `b` drawn into row `y` of the display, from column `px` (R212). -/
def drawRow (p : CollisionTest) (px : Nat) (y : Fin 32) (b : Byte) (acc : Display × Bool) : Display × Bool :=
  let r := plotRow p px b (acc.1[y], acc.2)
  (acc.1.set y r.1, r.2)

/-- The rows of a sprite downwards from row `py`, both axes wrapping (R212). -/
def drawRows (p : CollisionTest) (px : Nat) : (py : Nat) → List Byte → Display × Bool → Display × Bool
  | _, [], acc => acc
  | py, b :: bs, acc => drawRows p px (py + 1) bs (drawRow p px (Fin.ofNat 32 py) b acc)

/-- R210: CLS. -/
def execCls (s : State) : Host.Outcome State Fault Refusal := .next ((s.setDisp Display.blank).requestRedraw)

/-- R212 after VF is reset: the coordinates are read here, so VF as a coordinate is 0. -/
def State.drawSprite (s : State) (x y : Reg) (n : Nibble) : Display × Bool :=
  drawRows s.policies.collision (s.getV x).toNat (s.getV y).toNat (s.spriteBytes n) (s.disp, false)

/-- R212: DRW Vx, Vy, n. -/
def execDrw (x y : Reg) (n : Nibble) (s : State) : Host.Outcome State Fault Refusal :=
  let t := s.setV VF 0
  let r := t.drawSprite x y n
  .next (((t.setDisp r.1).setV VF (if r.2 then 1 else 0)).requestRedraw)

end Sys2Proof.Machine
end

