-- ==== Sys2Proof/Machine/Index.lean ====
section
/-! DEFINITION. The index register and memory transfers (43_index_memory.md). -/

namespace Sys2Proof.Machine

/-- R190: LD I, nnn. -/
def execLdI (nnn : Addr12) (s : State) : Host.Outcome State Fault Refusal := .next (s.setI (addrWord nnn))

/-- R191: ADD I, Vx, modulo 0x10000; VF is not changed. -/
def execAddI (x : Reg) (s : State) : Host.Outcome State Fault Refusal := .next (s.setI (s.i + byteWord (s.getV x)))

/-- R192: LD F, Vx. -/
def execLdF (x : Reg) (s : State) : Host.Outcome State Fault Refusal := .next (s.setI (glyphAddr (s.getV x)))

/-- R193: LD B, Vx: the decimal digits to `I`, `I + 1`, `I + 2`. -/
def execLdB (x : Reg) (s : State) : Host.Outcome State Fault Refusal :=
  .next (s.writeBytes (s.indexAddr 0) (decimalDigits (s.getV x)))

/-- R195: LD [I], Vx: `V[0]`..`V[x]` to `I`..`I + x`, then `I` by `P_INDEX_ADVANCE`. -/
def execLdMemV (x : Reg) (s : State) : Host.Outcome State Fault Refusal :=
  .next ((s.writeBytes (s.indexAddr 0) (s.regsUpTo x)).setI (advancedIndex s.policies.indexAdvance s.i x))

/-- R196: LD Vx, [I]: `V[0]`..`V[x]` from `I`..`I + x`, then `I` by `P_INDEX_ADVANCE`. -/
def execLdVMem (x : Reg) (s : State) : Host.Outcome State Fault Refusal :=
  .next ((s.loadRegs x).setI (advancedIndex s.policies.indexAdvance s.i x))

end Sys2Proof.Machine
end

