-- ==== Sys2Proof/Machine/Keypad.lean ====
section
/-! DEFINITION. Keypad tests, timer transfers and the key wait (45_timers_keypad.md). -/

namespace Sys2Proof.Machine

/-- R231: SKP Vx. -/
def execSkp (x : Reg) (s : State) : Host.Outcome State Fault Refusal := .next (s.skipIf (s.pressed (s.getV x)))

/-- R232: SKNP Vx. -/
def execSknp (x : Reg) (s : State) : Host.Outcome State Fault Refusal := .next (s.skipIf (!s.pressed (s.getV x)))

/-- R233: LD Vx, DT. -/
def execLdVDt (x : Reg) (s : State) : Host.Outcome State Fault Refusal := .next (s.setV x s.dt)

/-- R234: LD DT, Vx. -/
def execLdDt (x : Reg) (s : State) : Host.Outcome State Fault Refusal := .next (s.setDt (s.getV x))

/-- R235: LD ST, Vx. -/
def execLdSt (x : Reg) (s : State) : Host.Outcome State Fault Refusal := .next (s.setSt (s.getV x))

/-- R236: LD Vx, K: the wait begins; `key_down` ends it (R126). -/
def execLdVK (x : Reg) (s : State) : Host.Outcome State Fault Refusal := .next (s.setMode (.awaitingKey x))

end Sys2Proof.Machine
end

