-- ==== Sys2Proof/Machine/Unknown.lean ====
section
/-! DEFINITION. The unknown-opcode routine (40_execution_engine.md R105). -/

namespace Sys2Proof.Machine

/-- R105: a no-op that reports the word and the address it was fetched from. -/
def execUnknown (w : Word) (s : State) : Host.Outcome State Fault Refusal := .next (s.emit (.unknownOpcode s.pcFetch w))

end Sys2Proof.Machine
end

