-- ==== Sys2Proof/Machine/Engine.lean ====
section
/-! DEFINITION. The Execution Engine less its dispatch: fetch, the timer tick, the time of an `advance` call, and the host's
boundary operations (40_execution_engine.md, 70_reset_and_hazards.md R282). -/

namespace Sys2Proof.Machine

/-- R102: the word at `PC`, big-endian; `PC + 1` is formed before it is masked. -/
def State.fetchWord (s : State) : Word := wordOfBytes (s.readMem s.pc.toNat) (s.readMem (s.pc.toNat + 1))

/-- One timer of a tick: less 1, never below 0 (R122). -/
def tickDown (b : Byte) : Byte := if b = 0 then 0 else b - 1

/-- R122: one timer tick. -/
def State.tick (s : State) : State := (s.setDt (tickDown s.dt)).setSt (tickDown s.st)

/-- How many whole periods `t` holds, and what is left over (R123). -/
def splitTime (period t : Rat) : Nat × Rat := ((t / period).floor.toNat, t - (t / period).floor.toNat * period)

/-- An order of `nc` cycles and `nt` ticks (R125): `order` read from its head, each entry taking one slot of its kind while there
is one; then the cycles left, then the ticks left. With `order = []` this is the reference order. -/
def interleave : (order : List Slot) → (nc nt : Nat) → List Slot
  | [], nc, nt => List.replicate nc .cycle ++ List.replicate nt .tick
  | .cycle :: order, 0, nt => interleave order 0 nt
  | .cycle :: order, nc + 1, nt => .cycle :: interleave order nc nt
  | .tick :: order, nc, 0 => interleave order nc 0
  | .tick :: order, nc, nt + 1 => .tick :: interleave order nc nt

/-- The time accumulators replaced (R37). -/
def State.setTime (s : State) (cycleAcc timerAcc : Rat) : State := { s with cycleAcc := cycleAcc, timerAcc := timerAcc }

/-- The progress of the `advance` call replaced. -/
def State.setSlots (s : State) (l : Option (List Slot)) : State := { s with slots := l }

/-- The host's calls still to come replaced. -/
def State.setHost (s : State) (l : List HostCall) : State := { s with host := l }

/-- No `load_program` may follow (R283). -/
def State.closeLoading (s : State) : State := { s with mayLoad := false }

/-- The start of `advance(d)` for the periods `cp` and `tp`, up to the first slot (R123). -/
def State.beginAdvanceWith (s : State) (cp tp d : Rat) (order : List Slot) : State :=
  if s.isFaulted then (s.closeLoading).emit (.redrawFlag false)
  else
    (((s.closeLoading).setTime (splitTime cp (s.cycleAcc + d)).2 (splitTime tp (s.timerAcc + d)).2).setRedraw false).setSlots
      (some (interleave order (splitTime cp (s.cycleAcc + d)).1 (splitTime tp (s.timerAcc + d)).1))

/-- The start of `advance(d)` (R123). -/
def State.beginAdvance (s : State) (d : Rat) (order : List Slot) : State :=
  s.beginAdvanceWith Config.cyclePeriod s.policies.timerPeriod d order

/-- The end of an `advance` call: the redraw flag gathered is returned and not kept (R123, R124, R38). -/
def State.endAdvance (s : State) : State := ((s.emit (.redrawFlag s.redraw)).setRedraw false).setSlots none

/-- R126: `key_down(k)`. -/
def State.keyDown (s : State) (k : Key) : State :=
  match s.mode with
  | .awaitingKey r => ((s.setKey k true).setV r (BitVec.ofNat 8 k.val)).setMode .running
  | .running => s.setKey k true
  | .faulted _ => s.setKey k true

/-- R127: `key_up(k)`. -/
def State.keyUp (s : State) (k : Key) : State := s.setKey k false

/-- Where a program is loaded and starts: 0x200 (R59). -/
def programOrigin : Nat := 0x200

/-- The most bytes a program may have: 3584 (R282). -/
def maxProgram : Nat := 0x1000 - 0x200

/-- R282: `load_program(bytes)`; a program that does not fit is refused and nothing is written. -/
def State.loadProgram (s : State) (bytes : List Byte) : State :=
  if bytes.length > maxProgram then s.emit (.loadResult false)
  else (s.writeBytes programOrigin bytes).emit (.loadResult true)

/-- R131: what `read_debug_snapshot` shows, for the addresses `window`. -/
def State.snapshotWith (s : State) (window : List Nat) : Snapshot where
  v := s.v
  i := s.i
  window := window.map (fun a => (a, s.readMem a))
  stack := s.stack
  pc := s.pc
  dt := s.dt
  st := s.st
  mode := s.mode

/-- R131: `read_debug_snapshot()`. -/
def State.snapshot (s : State) : Snapshot := s.snapshotWith Config.debugWindow

/-- One boundary operation the host calls (R120, R132), performed on the state from which the call has been taken off. -/
def State.serve (s : State) : HostCall → Host.Outcome State Fault Refusal
  | .loadProgram bytes => if s.mayLoad then .next ((s.closeLoading).loadProgram bytes) else .refused .loadOutOfTurn
  | .advance d order => if d < 0 then .refused .negativeDuration else .next (s.beginAdvance d order)
  | .keyDown k => .next (s.keyDown k)
  | .keyUp k => .next (s.keyUp k)
  | .hostKeyDown symbol =>
    match Config.keymap symbol with
    | some k => .next (s.keyDown k)
    | none => .next s
  | .hostKeyUp symbol =>
    match Config.keymap symbol with
    | some k => .next (s.keyUp k)
    | none => .next s
  | .readDisplay => .next (s.emit (.displayCopy s.disp))
  | .readDebugSnapshot => .next (s.emit (.debugSnapshot s.snapshot))

/-- The state with a word placed where the next step fetches: its two bytes in the cells of `PC` and `PC + 1`, the engine
`Running`, and an `advance` call in progress with one cycle left. -/
def State.placeWord (s : State) (w : Word) : State :=
  (((s.writeMem s.pc.toNat (highByte w)).writeMem (s.pc.toNat + 1) (lowByte w)).setMode .running).setSlots (some [.cycle])

end Sys2Proof.Machine
end

