-- ==== Sys2Proof/Machine/Cycle.lean ====
section
/-! DEFINITION. The instruction cycle (40_execution_engine.md R101 to R107) and the order in which the engine and the host move. -/

namespace Sys2Proof.Machine

/-- R107: the whole cycle. Only `Running` fetches; in `AwaitingKey` the cycle is used up and in `Faulted` none runs (R101). -/
def State.cycle (s : State) : Host.Outcome State Fault Refusal :=
  match s.mode with
  | .running => exec (decodeWith s.policies.bnnn s.fetchWord) s.incPc
  | .awaitingKey _ => .next s
  | .faulted _ => .next s

/-- One slot of an `advance` call. -/
def State.runSlot (s : State) : Slot → Host.Outcome State Fault Refusal
  | .cycle => s.cycle
  | .tick => .next s.tick

/-- One move of the machine. In an `advance` call: the next slot, or the call's end when no slot is left or `M` is `Faulted`
(R123). Between calls: the host's next call (R120). With no call in progress and none to come the core does nothing (R100), and the
run has ended (R133, R291). -/
def State.move (s : State) : Host.Outcome State Fault Refusal :=
  match s.slots with
  | some [] => .next s.endAdvance
  | some (slot :: rest) => if s.isFaulted then .next s.endAdvance else (s.setSlots (some rest)).runSlot slot
  | none =>
    match s.host with
    | [] => .next s
    | call :: rest => (s.setHost rest).serve call

end Sys2Proof.Machine
end

