-- ==== Sys2Proof/Machine/Step.lean ====
section
/-! DEFINITION. One step of the machine, and the state with an instruction placed where the next step fetches. -/

namespace Sys2Proof.Machine

/-- One step: one move of the machine (`State.move`). -/
def step (s : State) : Host.Outcome State Fault Refusal := s.move

/-- `s` with the table word `w` of `nbits` bits stored where `step` fetches its next instruction. -/
def State.withFetchWord (s : State) (nbits w : Nat) : State := s.placeWord (tableWord nbits w)

end Sys2Proof.Machine
end

