-- ==== Sys2Proof/Safety.lean ====
section
/-! DEFINITION. What counts as a safe run (70_reset_and_hazards.md R291), the invariants of the machine, and the terms the
statements of Certificates/ are written in. -/

namespace Sys2Proof.Machine

/-! ### Safe runs -/

/-- `t` is reached from `s` by some number of steps. -/
def Reaches (s t : State) : Prop := ∃ k, Sys2Proof.core.run k s = .next t

/-- No call is in progress and none is to come: the host has stopped calling, and the run has ended (R133, R291). -/
def State.idle (s : State) : Prop := s.slots = none ∧ s.host = []

/-- A call that may follow the load in a host script (R291, R133): any call but another load, a duration not negative. -/
def HostCall.inScript : HostCall → Prop
  | .loadProgram _ => False
  | .advance d _ => 0 ≤ d
  | .keyDown _ | .keyUp _ | .hostKeyDown _ | .hostKeyUp _ | .readDisplay | .readDebugSnapshot => True

/-- The start of a run (R291): construction, and the host about to make one `load_program` and then the calls of the script. -/
def runStart (p : Policies) (bytes : List Byte) (calls : List HostCall) : State :=
  (State.construct p).setHost (.loadProgram bytes :: calls)

/-- `t` is the end state of the run from `s`: the state after the last call (R291). -/
def EndsIn (s t : State) : Prop := Reaches s t ∧ t.idle

/-- A normal end of a run (R291): the core is not `Faulted` and the load was not refused. -/
def State.normalEnd (s : State) : Prop := s.idle ∧ s.isFaulted = false ∧ Output.loadResult false ∉ s.outputs

/-! ### Invariants -/

/-- The invariant every step keeps: memory in canonical form (so no cell lies outside 0x000..0xFFF, R50), at most 16 stack
entries (R27), and each accumulator within its period (R37). -/
structure State.Inv (s : State) : Prop where
  memory : s.mem.wf s.policies.font = true
  depth : s.stack.length ≤ 16
  cycleAcc_nonneg : 0 ≤ s.cycleAcc
  cycleAcc_lt : s.cycleAcc < Config.cyclePeriod
  timerAcc_nonneg : 0 ≤ s.timerAcc
  timerAcc_lt : s.timerAcc < s.policies.timerPeriod

/-- The fault record tells the truth (R251, R252): `PC` is `PC_fetch + 2`, and the word and the stack are those of the fault. -/
def State.faultTruthful (s : State) : Prop :=
  ∀ f, s.mode = .faulted f →
    s.pc = f.pcFetch + 2 ∧
      match f.kind with
      | .stackOverflow => s.stack.length = 16 ∧ ∃ nnn, decodeWith s.policies.bnnn f.word = .call nnn
      | .stackUnderflow => s.stack = [] ∧ ∃ z, decodeWith s.policies.bnnn f.word = .ret z

/-! ### Frames -/

/-- What an instruction may change: the registers named in `regs`, the cells named in `cells`, and each part whose field is
`true`. -/
structure Footprint where
  regs : List Reg := []
  cells : List Nat := []
  i : Bool := false
  pc : Bool := false
  dt : Bool := false
  st : Bool := false
  stack : Bool := false
  disp : Bool := false
  mode : Bool := false
  redraw : Bool := false
  draws : Bool := false
  outputs : Bool := false

/-- From `s` to `t` nothing changed but what the footprint names. Every byte of memory is compared through `readMem`; the
keypad, the time accumulators, the policies and the host's side of the state never change in an instruction, so no footprint names them. -/
structure Keeps (f : Footprint) (s t : State) : Prop where
  regs : ∀ r, r ∉ f.regs → t.getV r = s.getV r
  memory : ∀ a, cellOf a ∉ f.cells → t.readMem a = s.readMem a
  i : f.i = false → t.i = s.i
  pc : f.pc = false → t.pc = s.pc
  dt : f.dt = false → t.dt = s.dt
  st : f.st = false → t.st = s.st
  stack : f.stack = false → t.stack = s.stack
  disp : f.disp = false → t.disp = s.disp
  mode : f.mode = false → t.mode = s.mode
  redraw : f.redraw = false → t.redraw = s.redraw
  draws : f.draws = false → t.draws = s.draws
  outputs : f.outputs = false → t.outputs = s.outputs
  key : t.key = s.key
  cycleAcc : t.cycleAcc = s.cycleAcc
  timerAcc : t.timerAcc = s.timerAcc
  slots : t.slots = s.slots
  host : t.host = s.host
  mayLoad : t.mayLoad = s.mayLoad
  policies : t.policies = s.policies

/-- The cells of `n` consecutive addresses from `a` up, each masked (20_memory.md R54, R57). -/
def cellsFrom (a n : Nat) : List Nat := (List.range n).map (fun k => cellOf (a + k))

/-! ### Terms of the display statements (44_display.md) -/

/-- A sprite coordinate: VF is reset before the coordinates are read, so as a coordinate it is 0 (R212). -/
def spriteCoord (s : State) (r : Reg) : Nat := if r = VF then 0 else (s.getV r).toNat

/-- The sprite bit that a draw of `n` rows at `V[x]`, `V[y]` lays over the pixel `(X, Y)`: column `(X - V[x]) mod 64` of row
`(Y - V[y]) mod 32`, bit 7 leftmost; `none` where the sprite does not reach (R212). -/
def spriteBitOver (s : State) (x y : Reg) (n : Nibble) (X : Fin 64) (Y : Fin 32) : Option Bool :=
  let col := (X.val + 64 - spriteCoord s x % 64) % 64
  let row := (Y.val + 32 - spriteCoord s y % 32) % 32
  if col < 8 ∧ row < n.toNat then some ((s.readMem (s.i.toNat + row)).getLsbD (7 - col)) else none

/-- A draw from `s` meets a collision by `P_COLLISION` (R211). -/
def drawCollides (p : CollisionTest) (s : State) (x y : Reg) (n : Nibble) : Prop :=
  ∃ X Y, s.disp.get X Y = true ∧
    (spriteBitOver s x y n X Y = some true ∨ (p = .allBits ∧ spriteBitOver s x y n X Y = some false))

/-! ### Terms of the statements about time (40_execution_engine.md) -/

/-- How many whole periods a sequence of `advance` durations yields from the accumulator `acc`, the remainder carried (R123). -/
def countPeriods (period : Rat) : (acc : Rat) → List Rat → Nat
  | _, [] => 0
  | acc, d :: ds => (splitTime period (acc + d)).1 + countPeriods period (splitTime period (acc + d)).2 ds

/-- `M = Running` and the word at `PC` decodes to `i`. -/
def State.fetches (s : State) (i : Instr) : Prop := s.mode = .running ∧ decodeWith s.policies.bnnn s.fetchWord = i

/-- The next move is a cycle that fetches the instruction `i`. -/
def State.aboutToRun (s : State) (i : Instr) : Prop :=
  s.fetches i ∧ ∃ rest, s.slots = some (.cycle :: rest)

/-- The next move is a timer tick. -/
def State.aboutToTick (s : State) : Prop := s.isFaulted = false ∧ ∃ rest, s.slots = some (.tick :: rest)

/-- The next move serves the host's call `c`. -/
def State.aboutToServe (s : State) (c : HostCall) : Prop := s.slots = none ∧ ∃ rest, s.host = c :: rest

/-- A host call that presses key `k`, directly or through `P_KEYMAP` (R126, R128). -/
def HostCall.presses (c : HostCall) (k : Key) : Prop :=
  c = .keyDown k ∨ ∃ symbol, c = .hostKeyDown symbol ∧ Config.keymap symbol = some k

/-- A host call that releases key `k`, directly or through `P_KEYMAP` (R127, R128). -/
def HostCall.releases (c : HostCall) (k : Key) : Prop :=
  c = .keyUp k ∨ ∃ symbol, c = .hostKeyUp symbol ∧ Config.keymap symbol = some k

end Sys2Proof.Machine
end

