-- ==== Sys2Proof/Certificates/Slice0/Obligations.lean ====
section
/-! DEFINITION. The statements about the model, from the numbered rules of spec/. In a statement about `exec`, `s` is the state
after the cycle's pre-increment (00_scope.md R12): `s.pc` is `PC_fetch + 2`. The policies, the font and the timer period are
the machine's (`s.policies`), so a statement about every state holds for every value of them (R8). -/

open Sys2Proof Sys2Proof.Machine

/-! ### Encoding and decoding (30_encoding.md) -/

/-- R80, R81: the word of every well-formed instruction decodes to that instruction, under both values of `P_BNNN`. -/
def Obligations.DecodeOfEncodeIsTheInstruction : Prop :=
  ∀ (p : BnnnPolicy) (i : Instr), i.wellFormedWith p = true → decodeWith p (encode i) = i

/-- R74, R79: every 16-bit word decodes to a well-formed instruction, and the instruction's word is that word: no bit of a word
is lost, whatever its row of the opcode map. -/
def Obligations.EncodeOfDecodeIsTheWord : Prop :=
  ∀ (p : BnnnPolicy) (w : Word), (decodeWith p w).wellFormedWith p = true ∧ encode (decodeWith p w) = w

/-- R78: a word decodes to the unknown instruction exactly when it is in one of the five classes of unknown words, and every word
of the other classes is a known instruction. -/
def Obligations.UnknownWordsAreThoseListed : Prop :=
  ∀ (p : BnnnPolicy) (w : Word),
    decodeWith p w = .unknown w ↔
      (fieldC w = 0x0 ∧ fieldKk w ≠ 0xE0 ∧ fieldKk w ≠ 0xEE) ∨
      (fieldC w = 0x8 ∧ fieldN w ∈ ([0x8, 0x9, 0xA, 0xB, 0xC, 0xD, 0xF] : List Nibble)) ∨
      (fieldC w = 0xB ∧ p = .unrecognized) ∨
      (fieldC w = 0xE ∧ fieldKk w ≠ 0x9E ∧ fieldKk w ≠ 0xA1) ∨
      (fieldC w = 0xF ∧ fieldKk w ∉ ([0x07, 0x0A, 0x15, 0x18, 0x1E, 0x29, 0x33, 0x55, 0x65] : List Byte))

/-- R81: words of every family, written out from the opcode map, decode to the instructions they stand for. -/
def Obligations.WrittenOutWordsDecode : Prop :=
  decodeWith .jumpV0 0x03E0 = .cls 0x3 ∧ decodeWith .jumpV0 0x220A = .call 0x20A ∧
  decodeWith .jumpV0 0x512F = .seReg 1 2 0xF ∧ decodeWith .jumpV0 0x8127 = .subn 1 2 ∧
  decodeWith .jumpV0 0xD01F = .drw 0 1 0xF ∧ decodeWith .jumpV0 0xE5A1 = .sknp 5 ∧
  decodeWith .jumpV0 0xF855 = .ldMemV 8 ∧ decodeWith .jumpV0 0x8008 = .unknown 0x8008 ∧
  decodeWith .jumpV0 0xB123 = .jpV0 0x123 ∧ decodeWith .unrecognized 0xB123 = .unknown 0xB123

/-! ### Control transfer (41_control_flow.md) -/

/-- R143, R29: with fewer than 16 entries on the stack, CALL nnn pushes the already incremented `PC` on top and jumps. -/
def Obligations.CallPushesTheReturnAddress : Prop :=
  ∀ (nnn : Addr12) (s : State), s.stack.length < 16 →
    decodeWith s.policies.bnnn (wordAddr 0x2 nnn) = .call nnn ∧
    ∃ t, exec (.call nnn) s = .next t ∧ t.stack = s.stack ++ [s.pc] ∧ t.pc.toNat = nnn.toNat ∧
      Keeps { pc := true, stack := true } s t

/-- R141, R30: RET loads `PC` with the last entry, all 16 bits, and takes it off the stack. -/
def Obligations.ReturnPopsIntoPc : Prop :=
  ∀ (z : Nibble) (a : Word) (l : List Word) (s : State), s.stack = l ++ [a] →
    decodeWith s.policies.bnnn (wordByte 0x0 z 0xEE) = .ret z ∧
    ∃ t, exec (.ret z) s = .next t ∧ t.pc = a ∧ t.stack = l ∧ Keeps { pc := true, stack := true } s t

/-- R251, R252, R29, R30: CALL with 16 entries on the stack raises `StackOverflow` (code 1) and RET on an empty stack raises
`StackUnderflow` (code 2). Only `M` changes, to `Faulted` with the kind, the address the word was fetched from and the word. -/
def Obligations.StackMisuseFaults : Prop :=
  ∀ (nnn : Addr12) (z : Nibble) (s : State),
    Fault.stackOverflow.code = 1 ∧ Fault.stackUnderflow.code = 2 ∧
    (s.stack.length = 16 → ∃ t, exec (.call nnn) s = .next t ∧
      t.mode = .faulted ⟨.stackOverflow, s.pc - 2, wordAddr 0x2 nnn⟩ ∧ Keeps { mode := true } s t) ∧
    (s.stack = [] → ∃ t, exec (.ret z) s = .next t ∧
      t.mode = .faulted ⟨.stackUnderflow, s.pc - 2, wordByte 0x0 z 0xEE⟩ ∧ Keeps { mode := true } s t)

/-- R149: a CALL followed at once by a RET comes back to the address after the CALL, with the stack as it was, when the stack held
fewer than 16 entries. `s` is the state before the CALL is fetched, the next two slots of the `advance` call in progress are
cycles, and both are run through `step`. -/
def Obligations.CallThenReturnComesBack : Prop :=
  ∀ (nnn : Addr12) (z : Nibble) (rest : List Slot) (s t : State), s.slots = some (.cycle :: .cycle :: rest) →
    s.fetches (.call nnn) → s.stack.length < 16 → step s = .next t → t.fetches (.ret z) →
    ∃ u, step t = .next u ∧ u.pc = s.pc + 2 ∧ u.stack = s.stack ∧ u.slots = some rest ∧
      Keeps { pc := true } { s with slots := some rest } u

/-- R142, R144, R77: JP nnn loads `PC` with the 12-bit address, JP V0, nnn with the unmasked sum of it and `V[0]`; nothing else
changes. A `Bnnn` word is JP V0, nnn under `jump_v0` and unknown under `unrecognized`. -/
def Obligations.JumpsLoadPc : Prop :=
  ∀ (nnn : Addr12) (s : State),
    decodeWith s.policies.bnnn (wordAddr 0x1 nnn) = .jp nnn ∧ decodeWith .jumpV0 (wordAddr 0xB nnn) = .jpV0 nnn ∧
    decodeWith .unrecognized (wordAddr 0xB nnn) = .unknown (wordAddr 0xB nnn) ∧
    (∃ t, exec (.jp nnn) s = .next t ∧ t.pc.toNat = nnn.toNat ∧ Keeps { pc := true } s t) ∧
    (∃ t, exec (.jpV0 nnn) s = .next t ∧ t.pc.toNat = nnn.toNat + (s.getV 0).toNat ∧ Keeps { pc := true } s t)

/-- R145, R146, R140: SE and SNE against a constant move `PC` by a further 2, modulo 0x10000, exactly when the test holds. -/
def Obligations.SkipOnAConstant : Prop :=
  ∀ (x : Reg) (kk : Byte) (s : State),
    decodeWith s.policies.bnnn (wordByte 0x3 (regNibble x) kk) = .seImm x kk ∧
    decodeWith s.policies.bnnn (wordByte 0x4 (regNibble x) kk) = .sneImm x kk ∧
    (∃ t, exec (.seImm x kk) s = .next t ∧
      t.pc.toNat = (if s.getV x = kk then (s.pc.toNat + 2) % 0x10000 else s.pc.toNat) ∧ Keeps { pc := true } s t) ∧
    (∃ t, exec (.sneImm x kk) s = .next t ∧
      t.pc.toNat = (if s.getV x = kk then s.pc.toNat else (s.pc.toNat + 2) % 0x10000) ∧ Keeps { pc := true } s t)

/-- R147, R148, R140: SE and SNE against a register, whatever the ignored low nibble. -/
def Obligations.SkipOnRegisters : Prop :=
  ∀ (x y : Reg) (z : Nibble) (s : State),
    decodeWith s.policies.bnnn (wordNibbles 0x5 (regNibble x) (regNibble y) z) = .seReg x y z ∧
    decodeWith s.policies.bnnn (wordNibbles 0x9 (regNibble x) (regNibble y) z) = .sneReg x y z ∧
    (∃ t, exec (.seReg x y z) s = .next t ∧
      t.pc.toNat = (if s.getV x = s.getV y then (s.pc.toNat + 2) % 0x10000 else s.pc.toNat) ∧ Keeps { pc := true } s t) ∧
    (∃ t, exec (.sneReg x y z) s = .next t ∧
      t.pc.toNat = (if s.getV x = s.getV y then s.pc.toNat else (s.pc.toNat + 2) % 0x10000) ∧ Keeps { pc := true } s t)

/-! ### Register arithmetic, logic, shifts and random (42_alu.md) -/

/-- R162 to R166: the loads and the bitwise operations write their result to `V[x]` and nothing else; VF is not reset. Bit by bit. -/
def Obligations.LoadsAndBitwiseOperations : Prop :=
  ∀ (x y : Reg) (kk : Byte) (s : State),
    decodeWith s.policies.bnnn (wordByte 0x6 (regNibble x) kk) = .ldImm x kk ∧
    decodeWith s.policies.bnnn (wordNibbles 0x8 (regNibble x) (regNibble y) 0x0) = .ldReg x y ∧
    decodeWith s.policies.bnnn (wordNibbles 0x8 (regNibble x) (regNibble y) 0x1) = .orReg x y ∧
    decodeWith s.policies.bnnn (wordNibbles 0x8 (regNibble x) (regNibble y) 0x2) = .andReg x y ∧
    decodeWith s.policies.bnnn (wordNibbles 0x8 (regNibble x) (regNibble y) 0x3) = .xorReg x y ∧
    (∃ t, exec (.ldImm x kk) s = .next t ∧ t.getV x = kk ∧ Keeps { regs := [x] } s t) ∧
    (∃ t, exec (.ldReg x y) s = .next t ∧ t.getV x = s.getV y ∧ Keeps { regs := [x] } s t) ∧
    (∃ t, exec (.orReg x y) s = .next t ∧
      (∀ b < 8, (t.getV x).getLsbD b = ((s.getV x).getLsbD b || (s.getV y).getLsbD b)) ∧ Keeps { regs := [x] } s t) ∧
    (∃ t, exec (.andReg x y) s = .next t ∧
      (∀ b < 8, (t.getV x).getLsbD b = ((s.getV x).getLsbD b && (s.getV y).getLsbD b)) ∧ Keeps { regs := [x] } s t) ∧
    (∃ t, exec (.xorReg x y) s = .next t ∧
      (∀ b < 8, (t.getV x).getLsbD b = ((s.getV x).getLsbD b != (s.getV y).getLsbD b)) ∧ Keeps { regs := [x] } s t)

/-- R167: ADD Vx, kk stores the sum modulo 256 and changes no flag (VF changes only as the destination). -/
def Obligations.AddConstantWrapsWithoutCarry : Prop :=
  ∀ (x : Reg) (kk : Byte) (s : State),
    decodeWith s.policies.bnnn (wordByte 0x7 (regNibble x) kk) = .addImm x kk ∧
    ∃ t, exec (.addImm x kk) s = .next t ∧ (t.getV x).toNat = ((s.getV x).toNat + kk.toNat) % 256 ∧
      Keeps { regs := [x] } s t

/-- R168, R161: ADD Vx, Vy stores the low byte of the sum and then the carry in VF; with `x = 0xF` VF ends as the carry. -/
def Obligations.AddRegistersSetsTheCarry : Prop :=
  ∀ (x y : Reg) (s : State),
    decodeWith s.policies.bnnn (wordNibbles 0x8 (regNibble x) (regNibble y) 0x4) = .addReg x y ∧
    ∃ t, exec (.addReg x y) s = .next t ∧
      (x ≠ VF → (t.getV x).toNat = ((s.getV x).toNat + (s.getV y).toNat) % 256) ∧
      t.getV VF = (if (s.getV x).toNat + (s.getV y).toNat > 255 then 1 else 0) ∧ Keeps { regs := [x, VF] } s t

/-- R169 to R171, R161: SUB and SUBN under either value of the machine's `P_SUB_WRAP`: no borrow gives the difference and VF = 1; a
borrow of `d` gives `0xFF - d` or `0x100 - d` and VF = 0; with `x = 0xF` VF ends as the flag. -/
def Obligations.SubtractBothWays : Prop :=
  ∀ (x y : Reg) (s : State),
    decodeWith s.policies.bnnn (wordNibbles 0x8 (regNibble x) (regNibble y) 0x5) = .sub x y ∧
    decodeWith s.policies.bnnn (wordNibbles 0x8 (regNibble x) (regNibble y) 0x7) = .subn x y ∧
    (∃ t, exec (.sub x y) s = .next t ∧
      (x ≠ VF → (t.getV x).toNat =
        if (s.getV x).toNat ≥ (s.getV y).toNat then (s.getV x).toNat - (s.getV y).toNat
        else if s.policies.subWrap = .observed then 0xFF - ((s.getV y).toNat - (s.getV x).toNat)
        else 0x100 - ((s.getV y).toNat - (s.getV x).toNat)) ∧
      t.getV VF = (if (s.getV x).toNat ≥ (s.getV y).toNat then 1 else 0) ∧ Keeps { regs := [x, VF] } s t) ∧
    (∃ t, exec (.subn x y) s = .next t ∧
      (x ≠ VF → (t.getV x).toNat =
        if (s.getV y).toNat ≥ (s.getV x).toNat then (s.getV y).toNat - (s.getV x).toNat
        else if s.policies.subWrap = .observed then 0xFF - ((s.getV x).toNat - (s.getV y).toNat)
        else 0x100 - ((s.getV x).toNat - (s.getV y).toNat)) ∧
      t.getV VF = (if (s.getV y).toNat ≥ (s.getV x).toNat then 1 else 0) ∧ Keeps { regs := [x, VF] } s t)

/-- R169: with a borrow the `observed` result is one less than the `modular` result, both with flag 0; without one they agree. -/
def Obligations.SubtractPoliciesDifferByOne : Prop :=
  ∀ (lhs rhs : Byte),
    (lhs.toNat ≥ rhs.toNat → subFlag .observed lhs rhs = subFlag .modular lhs rhs ∧ (subFlag .observed lhs rhs).2 = 1) ∧
    (lhs.toNat < rhs.toNat →
      (subFlag .observed lhs rhs).1.toNat + 1 = (subFlag .modular lhs rhs).1.toNat ∧
      (subFlag .observed lhs rhs).2 = 0 ∧ (subFlag .modular lhs rhs).2 = 0)

/-- R172 to R174, R161: SHR and SHL shift `V[x]` by one, whatever `y`, and put the bit shifted out in VF, which it is at the end
when `x = 0xF`. -/
def Obligations.ShiftsByOne : Prop :=
  ∀ (x y : Reg) (s : State),
    decodeWith s.policies.bnnn (wordNibbles 0x8 (regNibble x) (regNibble y) 0x6) = .shr x y ∧
    decodeWith s.policies.bnnn (wordNibbles 0x8 (regNibble x) (regNibble y) 0xE) = .shl x y ∧
    (∃ t, exec (.shr x y) s = .next t ∧ (x ≠ VF → (t.getV x).toNat = (s.getV x).toNat / 2) ∧
      (t.getV VF).toNat = (s.getV x).toNat % 2 ∧ Keeps { regs := [x, VF] } s t) ∧
    (∃ t, exec (.shl x y) s = .next t ∧ (x ≠ VF → (t.getV x).toNat = 2 * (s.getV x).toNat % 256) ∧
      (t.getV VF).toNat = (s.getV x).toNat / 128 ∧ Keeps { regs := [x, VF] } s t)

/-- R175, R176: RND stores the byte drawn, masked, whatever byte it is; the next draw is another one of the free sequence. -/
def Obligations.RandomByteIsMasked : Prop :=
  ∀ (x : Reg) (kk : Byte) (s : State),
    decodeWith s.policies.bnnn (wordByte 0xC (regNibble x) kk) = .rnd x kk ∧
    ∃ t, exec (.rnd x kk) s = .next t ∧
      (∀ b < 8, (t.getV x).getLsbD b = ((Config.randomByte s.draws).getLsbD b && kk.getLsbD b)) ∧
      t.draws = s.draws + 1 ∧ Keeps { regs := [x], draws := true } s t

/-- R21: an instruction that is none of ADD Vx, Vy, SUB, SUBN, SHR, SHL and DRW leaves VF unchanged unless VF is its destination:
the `x` of an instruction that writes `V[x]`, or loaded from memory by Fx65 with `x = 0xF`. -/
def Obligations.OnlyFlagInstructionsWriteVF : Prop :=
  ∀ (i : Instr) (s t : State), exec i s = .next t → t.getV VF ≠ s.getV VF →
    match i with
    | .addReg _ _ | .sub _ _ | .subn _ _ | .shr _ _ | .shl _ _ | .drw _ _ _ => True
    | .ldImm x _ | .addImm x _ | .ldReg x _ | .orReg x _ | .andReg x _ | .xorReg x _ | .rnd x _ | .ldVDt x | .ldVMem x => x = VF
    | .cls _ | .ret _ | .jp _ | .call _ | .seImm _ _ | .sneImm _ _ | .seReg _ _ _ | .sneReg _ _ _ | .ldI _ | .jpV0 _
    | .skp _ | .sknp _ | .ldVK _ | .ldDt _ | .ldSt _ | .addI _ | .ldF _ | .ldB _ | .ldMemV _ | .unknown _ => False

/-! ### Index register and memory transfers (43_index_memory.md) -/

/-- R190, R191: LD I, nnn clears the upper 4 bits of `I`; ADD I, Vx adds modulo 0x10000 and leaves VF alone. -/
def Obligations.IndexLoadAndAdd : Prop :=
  ∀ (nnn : Addr12) (x : Reg) (s : State),
    decodeWith s.policies.bnnn (wordAddr 0xA nnn) = .ldI nnn ∧
    decodeWith s.policies.bnnn (wordByte 0xF (regNibble x) 0x1E) = .addI x ∧
    (∃ t, exec (.ldI nnn) s = .next t ∧ t.i.toNat = nnn.toNat ∧ Keeps { i := true } s t) ∧
    (∃ t, exec (.addI x) s = .next t ∧ t.i.toNat = (s.i.toNat + (s.getV x).toNat) % 0x10000 ∧ Keeps { i := true } s t)

/-- R192: LD F, Vx points `I` at the glyph of the low nibble of `V[x]`, in 0x000..0x04B. -/
def Obligations.GlyphAddressOfLowNibble : Prop :=
  ∀ (x : Reg) (s : State),
    decodeWith s.policies.bnnn (wordByte 0xF (regNibble x) 0x29) = .ldF x ∧
    ∃ t, exec (.ldF x) s = .next t ∧ t.i.toNat = 5 * ((s.getV x).toNat % 16) ∧ t.i.toNat ≤ 0x04B ∧ Keeps { i := true } s t

/-- R193: LD B, Vx stores the hundreds, tens and ones digits at `I`, `I + 1`, `I + 2`, masked; nothing else changes, `I` included. -/
def Obligations.BcdStoresThreeDigits : Prop :=
  ∀ (x : Reg) (s : State),
    decodeWith s.policies.bnnn (wordByte 0xF (regNibble x) 0x33) = .ldB x ∧
    ∃ t, exec (.ldB x) s = .next t ∧
      (t.readMem s.i.toNat).toNat = (s.getV x).toNat / 100 ∧
      (t.readMem (s.i.toNat + 1)).toNat = (s.getV x).toNat / 10 % 10 ∧
      (t.readMem (s.i.toNat + 2)).toNat = (s.getV x).toNat % 10 ∧
      Keeps { cells := cellsFrom s.i.toNat 3 } s t

/-- R195, R194: LD [I], Vx stores `V[0]`..`V[x]` at `I`..`I + x`, masked, and leaves `I` as `P_INDEX_ADVANCE` says; only those
cells and `I` may change. -/
def Obligations.RegisterDumpStoresInOrder : Prop :=
  ∀ (x : Reg) (s : State),
    decodeWith s.policies.bnnn (wordByte 0xF (regNibble x) 0x55) = .ldMemV x ∧
    ∃ t, exec (.ldMemV x) s = .next t ∧
      (∀ r ≤ x, t.readMem (s.i.toNat + r.val) = s.getV r) ∧
      t.i.toNat = (if s.policies.indexAdvance = .advance then (s.i.toNat + x.val + 1) % 0x10000 else s.i.toNat) ∧
      Keeps { cells := cellsFrom s.i.toNat (x.val + 1), i := true } s t

/-- R196, R194: LD Vx, [I] loads `V[0]`..`V[x]` from `I`..`I + x`, masked, and leaves `I` as `P_INDEX_ADVANCE` says; the registers
above `x` and all of memory keep their values. -/
def Obligations.RegisterLoadReadsInOrder : Prop :=
  ∀ (x : Reg) (s : State),
    decodeWith s.policies.bnnn (wordByte 0xF (regNibble x) 0x65) = .ldVMem x ∧
    ∃ t, exec (.ldVMem x) s = .next t ∧
      (∀ r ≤ x, t.getV r = s.readMem (s.i.toNat + r.val)) ∧ (∀ r, x < r → t.getV r = s.getV r) ∧
      t.i.toNat = (if s.policies.indexAdvance = .advance then (s.i.toNat + x.val + 1) % 0x10000 else s.i.toNat) ∧
      Keeps { regs := (List.finRange 16).filter (fun r => decide (r ≤ x)), i := true } s t

/-! ### Display (44_display.md) -/

/-- R210: CLS makes every pixel false and requests a redraw. -/
def Obligations.ClearScreenBlanksEveryPixel : Prop :=
  ∀ (z : Nibble) (s : State),
    decodeWith s.policies.bnnn (wordByte 0x0 z 0xE0) = .cls z ∧
    ∃ t, exec (.cls z) s = .next t ∧ (∀ X Y, t.disp.get X Y = false) ∧ t.redraw = true ∧
      Keeps { disp := true, redraw := true } s t

/-- R212, R211: DRW XORs into every pixel of the display the sprite bit that lies over it, both axes wrapping, VF as a coordinate
reading 0; VF becomes 1 on a collision by `P_COLLISION` and 0 otherwise; a redraw is requested and nothing else changes. -/
def Obligations.DrawXorsTheSprite : Prop :=
  ∀ (x y : Reg) (n : Nibble) (s : State),
    decodeWith s.policies.bnnn (wordNibbles 0xD (regNibble x) (regNibble y) n) = .drw x y n ∧
    ∃ t, exec (.drw x y n) s = .next t ∧
      (∀ X Y, t.disp.get X Y = (s.disp.get X Y != (spriteBitOver s x y n X Y).getD false)) ∧
      (drawCollides s.policies.collision s x y n → t.getV VF = 1) ∧
      (¬ drawCollides s.policies.collision s x y n → t.getV VF = 0) ∧
      t.redraw = true ∧ Keeps { regs := [VF], disp := true, redraw := true } s t

/-- R214, the restoration: the same sprite drawn twice at the same position leaves the display as it was, always. -/
def Obligations.DrawingTwiceRestoresTheDisplay : Prop :=
  ∀ (x y : Reg) (n : Nibble) (s t u : State),
    exec (.drw x y n) s = .next t → exec (.drw x y n) t = .next u → u.disp = s.disp

/-- R214, the flag, where R212 gives it: if a pixel under a 1 bit of the sprite was unlit before the first draw, VF is 1 after the
second. With every sprite byte zero VF is 0 under `lit_bits`, and under `all_bits` it is 1 exactly if a pixel of the region was lit. -/
def Obligations.SecondDrawCollidesWithTheFirst : Prop :=
  ∀ (x y : Reg) (n : Nibble) (s t u : State), exec (.drw x y n) s = .next t → exec (.drw x y n) t = .next u →
    (∀ X Y, spriteBitOver s x y n X Y = some true → s.disp.get X Y = false → u.getV VF = 1) ∧
    ((∀ row < n.toNat, s.readMem (s.i.toNat + row) = 0) →
      (s.policies.collision = .litBits → u.getV VF = 0) ∧
      (s.policies.collision = .allBits →
        (u.getV VF = 1 ↔ ∃ X Y, spriteBitOver s x y n X Y = some false ∧ s.disp.get X Y = true) ∧
        (u.getV VF = 0 ∨ u.getV VF = 1)))

/-- R214, the flag as its text has it: "The flag part holds when at least one of the `n` sprite bytes is nonzero". Where the pixels
under the 1 bits were all lit before the first draw, R212 gives VF = 0 after the second, so this statement FAILS. -/
def Obligations.SecondDrawOfANonzeroSpriteSetsVF : Prop :=
  ∀ (x y : Reg) (n : Nibble) (s t u : State),
    (∃ row < n.toNat, s.readMem (s.i.toNat + row) ≠ 0) →
    exec (.drw x y n) s = .next t → exec (.drw x y n) t = .next u → u.getV VF = 1

/-! ### Keypad and timers (45_timers_keypad.md, 40_execution_engine.md R122, R126 to R128) -/

/-- R230 to R232, R140: SKP skips exactly when `V[x]` names a held key, SKNP exactly when it does not; 16..255 name no key. -/
def Obligations.KeySkipsTestTheNamedKey : Prop :=
  ∀ (x : Reg) (s : State) (b : Bool),
    (b = true ↔ ∃ k : Key, k.val = (s.getV x).toNat ∧ s.key[k] = true) →
    decodeWith s.policies.bnnn (wordByte 0xE (regNibble x) 0x9E) = .skp x ∧
    decodeWith s.policies.bnnn (wordByte 0xE (regNibble x) 0xA1) = .sknp x ∧
    (∃ t, exec (.skp x) s = .next t ∧ t.pc.toNat = (if b then (s.pc.toNat + 2) % 0x10000 else s.pc.toNat) ∧
      Keeps { pc := true } s t) ∧
    (∃ t, exec (.sknp x) s = .next t ∧ t.pc.toNat = (if b then s.pc.toNat else (s.pc.toNat + 2) % 0x10000) ∧
      Keeps { pc := true } s t)

/-- R233 to R235: the timer transfers move one byte and nothing else. -/
def Obligations.TimerTransfersMoveOneByte : Prop :=
  ∀ (x : Reg) (s : State),
    decodeWith s.policies.bnnn (wordByte 0xF (regNibble x) 0x07) = .ldVDt x ∧
    decodeWith s.policies.bnnn (wordByte 0xF (regNibble x) 0x15) = .ldDt x ∧
    decodeWith s.policies.bnnn (wordByte 0xF (regNibble x) 0x18) = .ldSt x ∧
    (∃ t, exec (.ldVDt x) s = .next t ∧ t.getV x = s.dt ∧ Keeps { regs := [x] } s t) ∧
    (∃ t, exec (.ldDt x) s = .next t ∧ t.dt = s.getV x ∧ Keeps { dt := true } s t) ∧
    (∃ t, exec (.ldSt x) s = .next t ∧ t.st = s.getV x ∧ Keeps { st := true } s t)

/-- R236: LD Vx, K enters `AwaitingKey(x)` and changes nothing else, whichever keys are held. -/
def Obligations.KeyWaitBegins : Prop :=
  ∀ (x : Reg) (s : State),
    decodeWith s.policies.bnnn (wordByte 0xF (regNibble x) 0x0A) = .ldVK x ∧
    ∃ t, exec (.ldVK x) s = .next t ∧ t.mode = .awaitingKey x ∧ Keeps { mode := true } s t

/-- R126, R128: a key press, from the core's `key_down` or through `P_KEYMAP`, sets `Key[k]`; in `AwaitingKey(r)` it also writes
the index to `V[r]` and resumes `Running`; nothing else changes. -/
def Obligations.KeyDownResolvesTheWait : Prop :=
  ∀ (c : HostCall) (k : Key) (rest : List HostCall) (s : State), s.slots = none → s.host = c :: rest → c.presses k →
    ∃ t, step s = .next t ∧ t.host = rest ∧ t.key[k] = true ∧ (∀ j, j ≠ k → t.key[j] = s.key[j]) ∧
      (∀ r, s.mode = .awaitingKey r → (t.getV r).toNat = k.val ∧ t.mode = .running ∧ ∀ q, q ≠ r → t.getV q = s.getV q) ∧
      ((∀ r, s.mode ≠ .awaitingKey r) → t.mode = s.mode ∧ t.v = s.v) ∧
      { t with key := s.key, host := s.host, v := s.v, mode := s.mode } = s

/-- R127, R128: a key release clears `Key[k]` and changes nothing else, so it never resolves a wait; a host key symbol without an
entry in `P_KEYMAP` changes nothing but that the call is served. -/
def Obligations.KeyUpOnlyReleasesTheKey : Prop :=
  ∀ (c : HostCall) (rest : List HostCall) (s : State), s.slots = none → s.host = c :: rest →
    (∀ k, c.releases k →
      ∃ t, step s = .next t ∧ t.host = rest ∧ t.key[k] = false ∧ (∀ j, j ≠ k → t.key[j] = s.key[j]) ∧
        { t with key := s.key, host := s.host } = s) ∧
    (∀ symbol, Config.keymap symbol = none → c = .hostKeyDown symbol ∨ c = .hostKeyUp symbol →
      step s = .next { s with host := rest })

/-- R122: a tick takes 1 from each timer that is not 0, each by itself, in `Running` and in `AwaitingKey`; nothing else changes. -/
def Obligations.TickCountsTheTimersDown : Prop :=
  ∀ (rest : List Slot) (s : State), s.slots = some (.tick :: rest) → s.isFaulted = false →
    ∃ t, step s = .next t ∧ t.dt.toNat = s.dt.toNat - 1 ∧ t.st.toNat = s.st.toNat - 1 ∧ t.slots = some rest ∧
      { t with dt := s.dt, st := s.st, slots := s.slots } = s

/-! ### The engine (40_execution_engine.md) -/

/-- R105: an unknown word changes nothing but that the event with its address and the word itself is emitted. -/
def Obligations.UnknownWordIsReportedAndSkipped : Prop :=
  ∀ (w : Word) (s : State),
    ∃ t, exec (.unknown w) s = .next t ∧ t.outputs = s.outputs ++ [.unknownOpcode (s.pc - 2) w] ∧
      Keeps { outputs := true } s t

/-- R79, R251: no instruction stops the model: each has a next state from every state, and only CALL and RET may enter `Faulted`. -/
def Obligations.EveryInstructionCompletes : Prop :=
  ∀ (i : Instr) (s : State), ∃ t, exec i s = .next t ∧
    ((∀ nnn, i ≠ .call nnn) → (∀ z, i ≠ .ret z) → t.isFaulted = s.isFaulted ∨ t.isFaulted = false)

/-- R101 to R104, R107: a step that takes the next cycle of an `advance` call. When `M` is `Running` and the bytes at `PC` decode to
`i`, it is the meaning of `i` after `PC` moved past the word, with the slot used up; in `AwaitingKey` the slot is used up and nothing
else changes (R263). -/
def Obligations.StepRunsTheDecodedInstruction : Prop :=
  ∀ (rest : List Slot) (s : State), s.slots = some (.cycle :: rest) →
    (∀ i : Instr, s.mode = .running → i.wellFormedWith s.policies.bnnn = true →
      decodeBytesWith s.policies.bnnn [s.readMem s.pc.toNat, s.readMem (s.pc.toNat + 1)] = .ok (i, []) →
      step s = exec i { s with pc := s.pc + 2, slots := some rest }) ∧
    (∀ r, s.mode = .awaitingKey r → step s = .next { s with slots := some rest })

/-- A word placed with `withFetchWord` is what the next step runs, from every state, as the machine's `P_BNNN` reads it; the table's
decoder is the one of the default. The placing is the model's own (log entry 16). -/
def Obligations.PlacedWordIsRunNext : Prop :=
  ∀ (nbits w : Nat) (s : State),
    decodeTableWord nbits w = some (decodeWith Params.bnnn (tableWord nbits w)) ∧
    step (s.withFetchWord nbits w) =
      exec (decodeWith s.policies.bnnn (tableWord nbits w)) { s.withFetchWord nbits w with pc := s.pc + 2, slots := some [] }

/-- R291, R133, R255: a run is construction, one `load_program` and a finite script of further calls, and the script alone ends it:
for all parameters, every program and every script there is exactly one state after the last call. R100: there, with no call in
progress and none to come, the core does nothing. -/
def Obligations.EveryRunHasOneEndState : Prop :=
  (∀ (p : Policies) (bytes : List Byte) (calls : List HostCall), (∀ c ∈ calls, c.inScript) →
    ∃ t, EndsIn (runStart p bytes calls) t ∧ ∀ t', EndsIn (runStart p bytes calls) t' → t' = t) ∧
  ∀ s : State, s.slots = none → s.host = [] → step s = .next s

/-- R253, R36: `Faulted` is absorbing. Whatever a step does, but for the loads of a host outside the interface (R283), the
registers, memory, the stack, the display, the timers, `M` and the accumulators stay; only `Key` may change; an `advance` returns
`false`, and no `load_program` may follow it (the model's form of R283, log entry 7). -/
def Obligations.FaultedIsAbsorbing : Prop :=
  ∀ (f : FaultRecord) (s t : State), s.mode = .faulted f → (∀ bytes, ¬ s.aboutToServe (.loadProgram bytes)) → step s = .next t →
    { t with key := s.key, slots := s.slots, host := s.host, mayLoad := s.mayLoad, outputs := s.outputs, redraw := s.redraw } = s ∧
    (∀ d order rest, s.slots = none → s.host = .advance d order :: rest → 0 ≤ d →
      t.outputs = s.outputs ++ [.redrawFlag false] ∧ t.slots = none ∧ t.key = s.key ∧ t.mayLoad = false)

/-- R123, R259: `advance(d)` takes in the elapsed time: the whole cycles and ticks in it are scheduled, the rest is carried over, and
the redraw flag is lowered; nothing else changes. A `d` of exactly one timer period is exactly one tick. After it no `load_program`
may follow, and a negative `d` has no move: the model's forms of R283 and R123 (log entry 7). -/
def Obligations.AdvanceCountsWholePeriods : Prop :=
  ∀ (d : Rat) (order : List Slot) (rest : List HostCall) (s : State), s.slots = none → s.host = .advance d order :: rest →
    (d < 0 → step s = .refused .negativeDuration) ∧
    (s.Inv → 0 ≤ d → s.isFaulted = false →
      ∃ (t : State) (l : List Slot), step s = .next t ∧ t.slots = some l ∧ t.redraw = false ∧ t.mayLoad = false ∧
        (l.count .cycle : Rat) * Config.cyclePeriod + t.cycleAcc = s.cycleAcc + d ∧
        0 ≤ t.cycleAcc ∧ t.cycleAcc < Config.cyclePeriod ∧
        (l.count .tick : Rat) * s.policies.timerPeriod + t.timerAcc = s.timerAcc + d ∧
        0 ≤ t.timerAcc ∧ t.timerAcc < s.policies.timerPeriod ∧ (d = s.policies.timerPeriod → l.count .tick = 1) ∧ t.host = rest ∧
        { t with
          cycleAcc := s.cycleAcc, timerAcc := s.timerAcc, slots := s.slots, host := s.host, redraw := s.redraw,
          mayLoad := s.mayLoad } = s)

/-- R125: serving `advance(d)` performs its cycles and ticks in the order asked for; with the counts of R123 fixed, every interleaving
`l` of them is what some order asks for, `l` itself; and the empty order asks for the reference order, all cycles and then all ticks.
The order as an argument of the call is the model's form of the free choice (log entry 5). -/
def Obligations.EveryInterleavingIsAdmitted : Prop :=
  (∀ (order : List Slot) (nc nt : Nat),
    (interleave order nc nt).count .cycle = nc ∧ (interleave order nc nt).count .tick = nt) ∧
  (∀ nc nt, interleave [] nc nt = List.replicate nc .cycle ++ List.replicate nt .tick) ∧
  ∀ (d : Rat) (order : List Slot) (rest : List HostCall) (s : State), s.Inv → 0 ≤ d → s.isFaulted = false → s.slots = none →
    s.host = .advance d order :: rest →
    ∃ (t : State) (nc nt : Nat), step s = .next t ∧ t.slots = some (interleave order nc nt) ∧
      (nc : Rat) * Config.cyclePeriod + t.cycleAcc = s.cycleAcc + d ∧ 0 ≤ t.cycleAcc ∧ t.cycleAcc < Config.cyclePeriod ∧
      (nt : Rat) * s.policies.timerPeriod + t.timerAcc = s.timerAcc + d ∧ 0 ≤ t.timerAcc ∧ t.timerAcc < s.policies.timerPeriod ∧
      ∀ l : List Slot, l.count .cycle = nc → l.count .tick = nt →
        step { s with host := .advance d l :: rest } = .next { t with slots := some l }

/-- R124, R123: in an `advance` call a step raises the redraw flag exactly when it runs CLS or DRW; when no slot is left, or `M` is
`Faulted`, the call ends and returns the flag, which is not kept (R38). -/
def Obligations.AdvanceReturnsTheRedrawFlag : Prop :=
  ∀ (l : List Slot) (s : State), s.slots = some l →
    ((l = [] ∨ s.isFaulted = true) →
      step s = .next { s with outputs := s.outputs ++ [.redrawFlag s.redraw], redraw := false, slots := none }) ∧
    (l ≠ [] → s.isFaulted = false → ∃ t, step s = .next t ∧ t.slots = some l.tail ∧
      (t.redraw = true ↔ s.redraw = true ∨
        (l.head? = some .cycle ∧ ((∃ z, s.fetches (.cls z)) ∨ ∃ x y n, s.fetches (.drw x y n)))))

/-- R255, R123: an `advance` call in progress always ends: with `n` slots left, after at most `n + 1` steps, by returning a flag. -/
def Obligations.AdvanceAlwaysReturns : Prop :=
  ∀ (l : List Slot) (s : State), s.slots = some l →
    ∃ k ≤ l.length + 1, ∃ t, Sys2Proof.core.run k s = .next t ∧ t.slots = none ∧ t.host = s.host ∧
      ∃ flag events, t.outputs = s.outputs ++ events ++ [.redrawFlag flag]

/-- R290: remainders are carried, so over any sequence of `advance` durations from an empty accumulator the periods counted are
exactly the whole periods in the durations' sum. -/
def Obligations.CarriedRemaindersLoseNoPeriod : Prop :=
  ∀ (period : Rat) (ds : List Rat), 0 < period → (∀ d ∈ ds, 0 ≤ d) →
    (countPeriods period 0 ds : Rat) * period ≤ ds.sum ∧ ds.sum < (countPeriods period 0 ds + 1 : Rat) * period

/-! ### Memory, reset and boot (20_memory.md, 10_state.md R42, 70_reset_and_hazards.md) -/

/-- R52, R53, R58: every address reaches the cell of its low 12 bits; a write is seen at every address of that cell and at no other,
in every cell of memory. -/
def Obligations.EveryAccessIsMasked : Prop :=
  ∀ (a c : Nat) (b : Byte) (s : State),
    s.readMem a = s.readMem (a % 0x1000) ∧
    (s.writeMem a b).readMem c = (if a % 0x1000 = c % 0x1000 then b else s.readMem c) ∧
    Keeps { cells := [a % 0x1000] } s (s.writeMem a b)

/-- Equal memories are equal data: two canonical memories that agree on every cell are the same list. The form is the model's own
choice (log entry 4). -/
def Obligations.CanonicalMemoryIsUnique : Prop :=
  ∀ (f : Font) (m m' : Memory), m.wf f = true → m'.wf f = true → (∀ c, c < 0x1000 → m.get f c = m'.get f c) → m = m'

/-- R282, R133: before the first `advance`, `load_program` copies at most 3584 bytes to 0x200 and up, leaves every other cell alone,
and says so; a longer program is refused and leaves memory unchanged. After it no `load_program` may follow, and one that does has
no move: the model's form of R283 (log entry 7). -/
def Obligations.LoadProgramCopiesOrRefuses : Prop :=
  ∀ (bytes : List Byte) (rest : List HostCall) (s : State), s.slots = none → s.host = .loadProgram bytes :: rest →
    (s.mayLoad = false → step s = .refused .loadOutOfTurn) ∧
    (s.mayLoad = true →
      ∃ t, step s = .next t ∧ { t with mem := s.mem, host := s.host, mayLoad := s.mayLoad, outputs := s.outputs } = s ∧
        t.host = rest ∧ t.mayLoad = false ∧
        (bytes.length ≤ 3584 → t.outputs = s.outputs ++ [.loadResult true] ∧
          (∀ k (h : k < bytes.length), t.readMem (0x200 + k) = bytes[k]) ∧
          ∀ c < 0x1000, (c < 0x200 ∨ 0x200 + bytes.length ≤ c) → t.readMem c = s.readMem c) ∧
        (bytes.length > 3584 → t.outputs = s.outputs ++ [.loadResult false] ∧ t.mem = s.mem))

/-- R130, R131: the reads give the display and the snapshot and change no state of the core. -/
def Obligations.HostReadsChangeNothing : Prop :=
  ∀ (rest : List HostCall) (s : State), s.slots = none →
    (s.host = .readDisplay :: rest →
      step s = .next { s with host := rest, outputs := s.outputs ++ [.displayCopy s.disp] }) ∧
    (s.host = .readDebugSnapshot :: rest →
      ∃ snap, step s = .next { s with host := rest, outputs := s.outputs ++ [.debugSnapshot snap] } ∧
        snap.v = s.v ∧ snap.i = s.i ∧ snap.stack = s.stack ∧ snap.pc = s.pc ∧ snap.dt = s.dt ∧ snap.st = s.st ∧
        snap.mode = s.mode ∧ snap.window = Config.debugWindow.map (fun a => (a, s.readMem a)))

/-- R42, R281, R8: the state after construction with the parameters `p`, every piece of it; memory is `P_FONT` in
0x000..0x04F and zero elsewhere. The state at reset is the one after construction with the defaults of R8: that the machine holds
its parameters and that reset takes the defaults is the model's form (log entry 9). -/
def Obligations.ConstructionValues : Prop :=
  (∀ (p : Policies) (s : State), s = State.construct p →
    (∀ r, s.getV r = 0) ∧ s.i = 0 ∧ s.pc = 0x200 ∧ s.dt = 0 ∧ s.st = 0 ∧ s.stack = [] ∧
    (∀ X Y, s.disp.get X Y = false) ∧ (∀ k : Key, s.key[k] = false) ∧ s.mode = .running ∧ s.cycleAcc = 0 ∧ s.timerAcc = 0 ∧
    (∀ c < 0x50, s.readMem c = p.font.getD c 0) ∧ (∀ c, 0x50 ≤ c → c < 0x1000 → s.readMem c = 0) ∧ s.policies = p) ∧
  State.reset = State.construct ⟨Params.timerPeriod, .observed, .unchanged, .litBits, .jumpV0, Params.font⟩ ∧
  (Params.timerPeriod : Rat) = 1 / 60

/-! ### Invariants and whole-machine rules -/

/-- R27, R37, R50: the state after construction, with any parameters, meets the invariant, and what it records of a fault, if
anything, is true (R251; that it is `Running`, and so records none, is in ConstructionValues); so does the state at reset. -/
def Obligations.ConstructionMeetsTheInvariant : Prop :=
  (∀ p : Policies, (State.construct p).Inv ∧ (State.construct p).faultTruthful) ∧ State.reset.Inv ∧ State.reset.faultTruthful

/-- R27, R37, R50: every step, whatever the instruction, tick or host call, keeps the invariant: memory canonical and within its
4096 cells, at most 16 stack entries, each accumulator within its period. R8, R39, R121: no step changes a policy, the font or the timer
period. -/
def Obligations.EveryStepKeepsTheInvariant : Prop :=
  ∀ s t : State, step s = .next t → t.policies = s.policies ∧ (s.Inv → t.Inv)

/-- R251, R252: the fault record tells the truth in every state a step reaches: `PC` is `PC_fetch + 2`; after `StackOverflow` the word
is a CALL and the stack is full, after `StackUnderflow` it is a RET and the stack is empty. -/
def Obligations.FaultRecordStaysTruthful : Prop :=
  ∀ s t : State, s.Inv → s.faultTruthful → step s = .next t → t.faultTruthful

/-- R215: only CLS and DRW change the display; no other instruction, no tick, no key event and no host call does. -/
def Obligations.OnlyClearAndDrawChangeTheDisplay : Prop :=
  ∀ s t : State, step s = .next t → t.disp ≠ s.disp →
    (∃ z, s.aboutToRun (.cls z)) ∨ ∃ x y n, s.aboutToRun (.drw x y n)

/-- R27: only CALL and RET touch the call stack. -/
def Obligations.OnlyCallAndReturnTouchTheStack : Prop :=
  ∀ s t : State, step s = .next t → t.stack ≠ s.stack →
    (∃ nnn, s.aboutToRun (.call nnn)) ∨ ∃ z, s.aboutToRun (.ret z)

/-- R50, R132: memory is changed only by LD B, by LD [I], Vx and by `load_program`. -/
def Obligations.OnlyStoresAndLoadsChangeMemory : Prop :=
  ∀ s t : State, step s = .next t → t.mem ≠ s.mem →
    (∃ x, s.aboutToRun (.ldB x)) ∨ (∃ x, s.aboutToRun (.ldMemV x)) ∨ ∃ bytes, s.aboutToServe (.loadProgram bytes)

/-- R22: `I` is changed only by LD I, ADD I and LD F, and by Fx55 and Fx65 when `P_INDEX_ADVANCE = advance`. -/
def Obligations.OnlyIndexInstructionsChangeI : Prop :=
  ∀ s t : State, step s = .next t → t.i ≠ s.i →
    (∃ nnn, s.aboutToRun (.ldI nnn)) ∨ (∃ x, s.aboutToRun (.addI x)) ∨ (∃ x, s.aboutToRun (.ldF x)) ∨
    (s.policies.indexAdvance = .advance ∧ ∃ x, s.aboutToRun (.ldMemV x) ∨ s.aboutToRun (.ldVMem x))

/-- R25, R26, R34: the timers are changed only by their own load or a tick, the keypad only by a key event of the host. -/
def Obligations.TimersAndKeysChangeOnlyAsNamed : Prop :=
  ∀ s t : State, step s = .next t →
    (t.dt ≠ s.dt → (∃ x, s.aboutToRun (.ldDt x)) ∨ s.aboutToTick) ∧
    (t.st ≠ s.st → (∃ x, s.aboutToRun (.ldSt x)) ∨ s.aboutToTick) ∧
    (t.key ≠ s.key → ∃ c k, s.aboutToServe c ∧ (c.presses k ∨ c.releases k))

/-- R35, R36: `M` changes in three ways only: LD Vx, K begins a wait for `x`; a key press ends the wait; CALL or RET faults. -/
def Obligations.MacroStateChangesInThreeWays : Prop :=
  ∀ s t : State, step s = .next t → t.mode ≠ s.mode →
    (∃ x, s.aboutToRun (.ldVK x) ∧ t.mode = .awaitingKey x) ∨
    (∃ r c k, s.mode = .awaitingKey r ∧ s.aboutToServe c ∧ c.presses k ∧ t.mode = .running) ∨
    (((∃ nnn, s.aboutToRun (.call nnn)) ∨ ∃ z, s.aboutToRun (.ret z)) ∧ t.isFaulted = true)
end

