-- ==== Sys2Proof/Laws/State.lean ====
section
/-! SUPPORT. One lemma per field of `State` per update, so that no proof unfolds a record update. -/

namespace Sys2Proof.Machine

variable (s : State)

/-! ### `State.setV` -/

@[simp] theorem State.setV_v (r : Reg) (b : Byte) : (s.setV r b).v = s.v.set r b := rfl
@[simp] theorem State.setV_i (r : Reg) (b : Byte) : (s.setV r b).i = s.i := rfl
@[simp] theorem State.setV_pc (r : Reg) (b : Byte) : (s.setV r b).pc = s.pc := rfl
@[simp] theorem State.setV_dt (r : Reg) (b : Byte) : (s.setV r b).dt = s.dt := rfl
@[simp] theorem State.setV_st (r : Reg) (b : Byte) : (s.setV r b).st = s.st := rfl
@[simp] theorem State.setV_stack (r : Reg) (b : Byte) : (s.setV r b).stack = s.stack := rfl
@[simp] theorem State.setV_mem (r : Reg) (b : Byte) : (s.setV r b).mem = s.mem := rfl
@[simp] theorem State.setV_disp (r : Reg) (b : Byte) : (s.setV r b).disp = s.disp := rfl
@[simp] theorem State.setV_key (r : Reg) (b : Byte) : (s.setV r b).key = s.key := rfl
@[simp] theorem State.setV_mode (r : Reg) (b : Byte) : (s.setV r b).mode = s.mode := rfl
@[simp] theorem State.setV_cycleAcc (r : Reg) (b : Byte) : (s.setV r b).cycleAcc = s.cycleAcc := rfl
@[simp] theorem State.setV_timerAcc (r : Reg) (b : Byte) : (s.setV r b).timerAcc = s.timerAcc := rfl
@[simp] theorem State.setV_redraw (r : Reg) (b : Byte) : (s.setV r b).redraw = s.redraw := rfl
@[simp] theorem State.setV_slots (r : Reg) (b : Byte) : (s.setV r b).slots = s.slots := rfl
@[simp] theorem State.setV_host (r : Reg) (b : Byte) : (s.setV r b).host = s.host := rfl
@[simp] theorem State.setV_mayLoad (r : Reg) (b : Byte) : (s.setV r b).mayLoad = s.mayLoad := rfl
@[simp] theorem State.setV_draws (r : Reg) (b : Byte) : (s.setV r b).draws = s.draws := rfl
@[simp] theorem State.setV_outputs (r : Reg) (b : Byte) : (s.setV r b).outputs = s.outputs := rfl
@[simp] theorem State.setV_policies (r : Reg) (b : Byte) : (s.setV r b).policies = s.policies := rfl

/-! ### `State.setI` -/

@[simp] theorem State.setI_v (a : Word) : (s.setI a).v = s.v := rfl
@[simp] theorem State.setI_i (a : Word) : (s.setI a).i = a := rfl
@[simp] theorem State.setI_pc (a : Word) : (s.setI a).pc = s.pc := rfl
@[simp] theorem State.setI_dt (a : Word) : (s.setI a).dt = s.dt := rfl
@[simp] theorem State.setI_st (a : Word) : (s.setI a).st = s.st := rfl
@[simp] theorem State.setI_stack (a : Word) : (s.setI a).stack = s.stack := rfl
@[simp] theorem State.setI_mem (a : Word) : (s.setI a).mem = s.mem := rfl
@[simp] theorem State.setI_disp (a : Word) : (s.setI a).disp = s.disp := rfl
@[simp] theorem State.setI_key (a : Word) : (s.setI a).key = s.key := rfl
@[simp] theorem State.setI_mode (a : Word) : (s.setI a).mode = s.mode := rfl
@[simp] theorem State.setI_cycleAcc (a : Word) : (s.setI a).cycleAcc = s.cycleAcc := rfl
@[simp] theorem State.setI_timerAcc (a : Word) : (s.setI a).timerAcc = s.timerAcc := rfl
@[simp] theorem State.setI_redraw (a : Word) : (s.setI a).redraw = s.redraw := rfl
@[simp] theorem State.setI_slots (a : Word) : (s.setI a).slots = s.slots := rfl
@[simp] theorem State.setI_host (a : Word) : (s.setI a).host = s.host := rfl
@[simp] theorem State.setI_mayLoad (a : Word) : (s.setI a).mayLoad = s.mayLoad := rfl
@[simp] theorem State.setI_draws (a : Word) : (s.setI a).draws = s.draws := rfl
@[simp] theorem State.setI_outputs (a : Word) : (s.setI a).outputs = s.outputs := rfl
@[simp] theorem State.setI_policies (a : Word) : (s.setI a).policies = s.policies := rfl

/-! ### `State.setPc` -/

@[simp] theorem State.setPc_v (a : Word) : (s.setPc a).v = s.v := rfl
@[simp] theorem State.setPc_i (a : Word) : (s.setPc a).i = s.i := rfl
@[simp] theorem State.setPc_pc (a : Word) : (s.setPc a).pc = a := rfl
@[simp] theorem State.setPc_dt (a : Word) : (s.setPc a).dt = s.dt := rfl
@[simp] theorem State.setPc_st (a : Word) : (s.setPc a).st = s.st := rfl
@[simp] theorem State.setPc_stack (a : Word) : (s.setPc a).stack = s.stack := rfl
@[simp] theorem State.setPc_mem (a : Word) : (s.setPc a).mem = s.mem := rfl
@[simp] theorem State.setPc_disp (a : Word) : (s.setPc a).disp = s.disp := rfl
@[simp] theorem State.setPc_key (a : Word) : (s.setPc a).key = s.key := rfl
@[simp] theorem State.setPc_mode (a : Word) : (s.setPc a).mode = s.mode := rfl
@[simp] theorem State.setPc_cycleAcc (a : Word) : (s.setPc a).cycleAcc = s.cycleAcc := rfl
@[simp] theorem State.setPc_timerAcc (a : Word) : (s.setPc a).timerAcc = s.timerAcc := rfl
@[simp] theorem State.setPc_redraw (a : Word) : (s.setPc a).redraw = s.redraw := rfl
@[simp] theorem State.setPc_slots (a : Word) : (s.setPc a).slots = s.slots := rfl
@[simp] theorem State.setPc_host (a : Word) : (s.setPc a).host = s.host := rfl
@[simp] theorem State.setPc_mayLoad (a : Word) : (s.setPc a).mayLoad = s.mayLoad := rfl
@[simp] theorem State.setPc_draws (a : Word) : (s.setPc a).draws = s.draws := rfl
@[simp] theorem State.setPc_outputs (a : Word) : (s.setPc a).outputs = s.outputs := rfl
@[simp] theorem State.setPc_policies (a : Word) : (s.setPc a).policies = s.policies := rfl

/-! ### `State.incPc` -/

@[simp] theorem State.incPc_v : s.incPc.v = s.v := rfl
@[simp] theorem State.incPc_i : s.incPc.i = s.i := rfl
@[simp] theorem State.incPc_pc : s.incPc.pc = s.pc + 2 := rfl
@[simp] theorem State.incPc_dt : s.incPc.dt = s.dt := rfl
@[simp] theorem State.incPc_st : s.incPc.st = s.st := rfl
@[simp] theorem State.incPc_stack : s.incPc.stack = s.stack := rfl
@[simp] theorem State.incPc_mem : s.incPc.mem = s.mem := rfl
@[simp] theorem State.incPc_disp : s.incPc.disp = s.disp := rfl
@[simp] theorem State.incPc_key : s.incPc.key = s.key := rfl
@[simp] theorem State.incPc_mode : s.incPc.mode = s.mode := rfl
@[simp] theorem State.incPc_cycleAcc : s.incPc.cycleAcc = s.cycleAcc := rfl
@[simp] theorem State.incPc_timerAcc : s.incPc.timerAcc = s.timerAcc := rfl
@[simp] theorem State.incPc_redraw : s.incPc.redraw = s.redraw := rfl
@[simp] theorem State.incPc_slots : s.incPc.slots = s.slots := rfl
@[simp] theorem State.incPc_host : s.incPc.host = s.host := rfl
@[simp] theorem State.incPc_mayLoad : s.incPc.mayLoad = s.mayLoad := rfl
@[simp] theorem State.incPc_draws : s.incPc.draws = s.draws := rfl
@[simp] theorem State.incPc_outputs : s.incPc.outputs = s.outputs := rfl
@[simp] theorem State.incPc_policies : s.incPc.policies = s.policies := rfl

/-! ### `State.setDt` -/

@[simp] theorem State.setDt_v (b : Byte) : (s.setDt b).v = s.v := rfl
@[simp] theorem State.setDt_i (b : Byte) : (s.setDt b).i = s.i := rfl
@[simp] theorem State.setDt_pc (b : Byte) : (s.setDt b).pc = s.pc := rfl
@[simp] theorem State.setDt_dt (b : Byte) : (s.setDt b).dt = b := rfl
@[simp] theorem State.setDt_st (b : Byte) : (s.setDt b).st = s.st := rfl
@[simp] theorem State.setDt_stack (b : Byte) : (s.setDt b).stack = s.stack := rfl
@[simp] theorem State.setDt_mem (b : Byte) : (s.setDt b).mem = s.mem := rfl
@[simp] theorem State.setDt_disp (b : Byte) : (s.setDt b).disp = s.disp := rfl
@[simp] theorem State.setDt_key (b : Byte) : (s.setDt b).key = s.key := rfl
@[simp] theorem State.setDt_mode (b : Byte) : (s.setDt b).mode = s.mode := rfl
@[simp] theorem State.setDt_cycleAcc (b : Byte) : (s.setDt b).cycleAcc = s.cycleAcc := rfl
@[simp] theorem State.setDt_timerAcc (b : Byte) : (s.setDt b).timerAcc = s.timerAcc := rfl
@[simp] theorem State.setDt_redraw (b : Byte) : (s.setDt b).redraw = s.redraw := rfl
@[simp] theorem State.setDt_slots (b : Byte) : (s.setDt b).slots = s.slots := rfl
@[simp] theorem State.setDt_host (b : Byte) : (s.setDt b).host = s.host := rfl
@[simp] theorem State.setDt_mayLoad (b : Byte) : (s.setDt b).mayLoad = s.mayLoad := rfl
@[simp] theorem State.setDt_draws (b : Byte) : (s.setDt b).draws = s.draws := rfl
@[simp] theorem State.setDt_outputs (b : Byte) : (s.setDt b).outputs = s.outputs := rfl
@[simp] theorem State.setDt_policies (b : Byte) : (s.setDt b).policies = s.policies := rfl

/-! ### `State.setSt` -/

@[simp] theorem State.setSt_v (b : Byte) : (s.setSt b).v = s.v := rfl
@[simp] theorem State.setSt_i (b : Byte) : (s.setSt b).i = s.i := rfl
@[simp] theorem State.setSt_pc (b : Byte) : (s.setSt b).pc = s.pc := rfl
@[simp] theorem State.setSt_dt (b : Byte) : (s.setSt b).dt = s.dt := rfl
@[simp] theorem State.setSt_st (b : Byte) : (s.setSt b).st = b := rfl
@[simp] theorem State.setSt_stack (b : Byte) : (s.setSt b).stack = s.stack := rfl
@[simp] theorem State.setSt_mem (b : Byte) : (s.setSt b).mem = s.mem := rfl
@[simp] theorem State.setSt_disp (b : Byte) : (s.setSt b).disp = s.disp := rfl
@[simp] theorem State.setSt_key (b : Byte) : (s.setSt b).key = s.key := rfl
@[simp] theorem State.setSt_mode (b : Byte) : (s.setSt b).mode = s.mode := rfl
@[simp] theorem State.setSt_cycleAcc (b : Byte) : (s.setSt b).cycleAcc = s.cycleAcc := rfl
@[simp] theorem State.setSt_timerAcc (b : Byte) : (s.setSt b).timerAcc = s.timerAcc := rfl
@[simp] theorem State.setSt_redraw (b : Byte) : (s.setSt b).redraw = s.redraw := rfl
@[simp] theorem State.setSt_slots (b : Byte) : (s.setSt b).slots = s.slots := rfl
@[simp] theorem State.setSt_host (b : Byte) : (s.setSt b).host = s.host := rfl
@[simp] theorem State.setSt_mayLoad (b : Byte) : (s.setSt b).mayLoad = s.mayLoad := rfl
@[simp] theorem State.setSt_draws (b : Byte) : (s.setSt b).draws = s.draws := rfl
@[simp] theorem State.setSt_outputs (b : Byte) : (s.setSt b).outputs = s.outputs := rfl
@[simp] theorem State.setSt_policies (b : Byte) : (s.setSt b).policies = s.policies := rfl

/-! ### `State.setMode` -/

@[simp] theorem State.setMode_v (m : MacroState) : (s.setMode m).v = s.v := rfl
@[simp] theorem State.setMode_i (m : MacroState) : (s.setMode m).i = s.i := rfl
@[simp] theorem State.setMode_pc (m : MacroState) : (s.setMode m).pc = s.pc := rfl
@[simp] theorem State.setMode_dt (m : MacroState) : (s.setMode m).dt = s.dt := rfl
@[simp] theorem State.setMode_st (m : MacroState) : (s.setMode m).st = s.st := rfl
@[simp] theorem State.setMode_stack (m : MacroState) : (s.setMode m).stack = s.stack := rfl
@[simp] theorem State.setMode_mem (m : MacroState) : (s.setMode m).mem = s.mem := rfl
@[simp] theorem State.setMode_disp (m : MacroState) : (s.setMode m).disp = s.disp := rfl
@[simp] theorem State.setMode_key (m : MacroState) : (s.setMode m).key = s.key := rfl
@[simp] theorem State.setMode_mode (m : MacroState) : (s.setMode m).mode = m := rfl
@[simp] theorem State.setMode_cycleAcc (m : MacroState) : (s.setMode m).cycleAcc = s.cycleAcc := rfl
@[simp] theorem State.setMode_timerAcc (m : MacroState) : (s.setMode m).timerAcc = s.timerAcc := rfl
@[simp] theorem State.setMode_redraw (m : MacroState) : (s.setMode m).redraw = s.redraw := rfl
@[simp] theorem State.setMode_slots (m : MacroState) : (s.setMode m).slots = s.slots := rfl
@[simp] theorem State.setMode_host (m : MacroState) : (s.setMode m).host = s.host := rfl
@[simp] theorem State.setMode_mayLoad (m : MacroState) : (s.setMode m).mayLoad = s.mayLoad := rfl
@[simp] theorem State.setMode_draws (m : MacroState) : (s.setMode m).draws = s.draws := rfl
@[simp] theorem State.setMode_outputs (m : MacroState) : (s.setMode m).outputs = s.outputs := rfl
@[simp] theorem State.setMode_policies (m : MacroState) : (s.setMode m).policies = s.policies := rfl

/-! ### `State.setKey` -/

@[simp] theorem State.setKey_v (k : Key) (b : Bool) : (s.setKey k b).v = s.v := rfl
@[simp] theorem State.setKey_i (k : Key) (b : Bool) : (s.setKey k b).i = s.i := rfl
@[simp] theorem State.setKey_pc (k : Key) (b : Bool) : (s.setKey k b).pc = s.pc := rfl
@[simp] theorem State.setKey_dt (k : Key) (b : Bool) : (s.setKey k b).dt = s.dt := rfl
@[simp] theorem State.setKey_st (k : Key) (b : Bool) : (s.setKey k b).st = s.st := rfl
@[simp] theorem State.setKey_stack (k : Key) (b : Bool) : (s.setKey k b).stack = s.stack := rfl
@[simp] theorem State.setKey_mem (k : Key) (b : Bool) : (s.setKey k b).mem = s.mem := rfl
@[simp] theorem State.setKey_disp (k : Key) (b : Bool) : (s.setKey k b).disp = s.disp := rfl
@[simp] theorem State.setKey_key (k : Key) (b : Bool) : (s.setKey k b).key = s.key.set k b := rfl
@[simp] theorem State.setKey_mode (k : Key) (b : Bool) : (s.setKey k b).mode = s.mode := rfl
@[simp] theorem State.setKey_cycleAcc (k : Key) (b : Bool) : (s.setKey k b).cycleAcc = s.cycleAcc := rfl
@[simp] theorem State.setKey_timerAcc (k : Key) (b : Bool) : (s.setKey k b).timerAcc = s.timerAcc := rfl
@[simp] theorem State.setKey_redraw (k : Key) (b : Bool) : (s.setKey k b).redraw = s.redraw := rfl
@[simp] theorem State.setKey_slots (k : Key) (b : Bool) : (s.setKey k b).slots = s.slots := rfl
@[simp] theorem State.setKey_host (k : Key) (b : Bool) : (s.setKey k b).host = s.host := rfl
@[simp] theorem State.setKey_mayLoad (k : Key) (b : Bool) : (s.setKey k b).mayLoad = s.mayLoad := rfl
@[simp] theorem State.setKey_draws (k : Key) (b : Bool) : (s.setKey k b).draws = s.draws := rfl
@[simp] theorem State.setKey_outputs (k : Key) (b : Bool) : (s.setKey k b).outputs = s.outputs := rfl
@[simp] theorem State.setKey_policies (k : Key) (b : Bool) : (s.setKey k b).policies = s.policies := rfl

/-! ### `State.setStack` -/

@[simp] theorem State.setStack_v (l : List Word) : (s.setStack l).v = s.v := rfl
@[simp] theorem State.setStack_i (l : List Word) : (s.setStack l).i = s.i := rfl
@[simp] theorem State.setStack_pc (l : List Word) : (s.setStack l).pc = s.pc := rfl
@[simp] theorem State.setStack_dt (l : List Word) : (s.setStack l).dt = s.dt := rfl
@[simp] theorem State.setStack_st (l : List Word) : (s.setStack l).st = s.st := rfl
@[simp] theorem State.setStack_stack (l : List Word) : (s.setStack l).stack = l := rfl
@[simp] theorem State.setStack_mem (l : List Word) : (s.setStack l).mem = s.mem := rfl
@[simp] theorem State.setStack_disp (l : List Word) : (s.setStack l).disp = s.disp := rfl
@[simp] theorem State.setStack_key (l : List Word) : (s.setStack l).key = s.key := rfl
@[simp] theorem State.setStack_mode (l : List Word) : (s.setStack l).mode = s.mode := rfl
@[simp] theorem State.setStack_cycleAcc (l : List Word) : (s.setStack l).cycleAcc = s.cycleAcc := rfl
@[simp] theorem State.setStack_timerAcc (l : List Word) : (s.setStack l).timerAcc = s.timerAcc := rfl
@[simp] theorem State.setStack_redraw (l : List Word) : (s.setStack l).redraw = s.redraw := rfl
@[simp] theorem State.setStack_slots (l : List Word) : (s.setStack l).slots = s.slots := rfl
@[simp] theorem State.setStack_host (l : List Word) : (s.setStack l).host = s.host := rfl
@[simp] theorem State.setStack_mayLoad (l : List Word) : (s.setStack l).mayLoad = s.mayLoad := rfl
@[simp] theorem State.setStack_draws (l : List Word) : (s.setStack l).draws = s.draws := rfl
@[simp] theorem State.setStack_outputs (l : List Word) : (s.setStack l).outputs = s.outputs := rfl
@[simp] theorem State.setStack_policies (l : List Word) : (s.setStack l).policies = s.policies := rfl

/-! ### `State.writeMem` -/

@[simp] theorem State.writeMem_v (a : Nat) (b : Byte) : (s.writeMem a b).v = s.v := rfl
@[simp] theorem State.writeMem_i (a : Nat) (b : Byte) : (s.writeMem a b).i = s.i := rfl
@[simp] theorem State.writeMem_pc (a : Nat) (b : Byte) : (s.writeMem a b).pc = s.pc := rfl
@[simp] theorem State.writeMem_dt (a : Nat) (b : Byte) : (s.writeMem a b).dt = s.dt := rfl
@[simp] theorem State.writeMem_st (a : Nat) (b : Byte) : (s.writeMem a b).st = s.st := rfl
@[simp] theorem State.writeMem_stack (a : Nat) (b : Byte) : (s.writeMem a b).stack = s.stack := rfl
@[simp] theorem State.writeMem_mem (a : Nat) (b : Byte) : (s.writeMem a b).mem = s.mem.put s.policies.font (cellOf a) b := rfl
@[simp] theorem State.writeMem_disp (a : Nat) (b : Byte) : (s.writeMem a b).disp = s.disp := rfl
@[simp] theorem State.writeMem_key (a : Nat) (b : Byte) : (s.writeMem a b).key = s.key := rfl
@[simp] theorem State.writeMem_mode (a : Nat) (b : Byte) : (s.writeMem a b).mode = s.mode := rfl
@[simp] theorem State.writeMem_cycleAcc (a : Nat) (b : Byte) : (s.writeMem a b).cycleAcc = s.cycleAcc := rfl
@[simp] theorem State.writeMem_timerAcc (a : Nat) (b : Byte) : (s.writeMem a b).timerAcc = s.timerAcc := rfl
@[simp] theorem State.writeMem_redraw (a : Nat) (b : Byte) : (s.writeMem a b).redraw = s.redraw := rfl
@[simp] theorem State.writeMem_slots (a : Nat) (b : Byte) : (s.writeMem a b).slots = s.slots := rfl
@[simp] theorem State.writeMem_host (a : Nat) (b : Byte) : (s.writeMem a b).host = s.host := rfl
@[simp] theorem State.writeMem_mayLoad (a : Nat) (b : Byte) : (s.writeMem a b).mayLoad = s.mayLoad := rfl
@[simp] theorem State.writeMem_draws (a : Nat) (b : Byte) : (s.writeMem a b).draws = s.draws := rfl
@[simp] theorem State.writeMem_outputs (a : Nat) (b : Byte) : (s.writeMem a b).outputs = s.outputs := rfl
@[simp] theorem State.writeMem_policies (a : Nat) (b : Byte) : (s.writeMem a b).policies = s.policies := rfl

/-! ### `State.setDisp` -/

@[simp] theorem State.setDisp_v (d : Display) : (s.setDisp d).v = s.v := rfl
@[simp] theorem State.setDisp_i (d : Display) : (s.setDisp d).i = s.i := rfl
@[simp] theorem State.setDisp_pc (d : Display) : (s.setDisp d).pc = s.pc := rfl
@[simp] theorem State.setDisp_dt (d : Display) : (s.setDisp d).dt = s.dt := rfl
@[simp] theorem State.setDisp_st (d : Display) : (s.setDisp d).st = s.st := rfl
@[simp] theorem State.setDisp_stack (d : Display) : (s.setDisp d).stack = s.stack := rfl
@[simp] theorem State.setDisp_mem (d : Display) : (s.setDisp d).mem = s.mem := rfl
@[simp] theorem State.setDisp_disp (d : Display) : (s.setDisp d).disp = d := rfl
@[simp] theorem State.setDisp_key (d : Display) : (s.setDisp d).key = s.key := rfl
@[simp] theorem State.setDisp_mode (d : Display) : (s.setDisp d).mode = s.mode := rfl
@[simp] theorem State.setDisp_cycleAcc (d : Display) : (s.setDisp d).cycleAcc = s.cycleAcc := rfl
@[simp] theorem State.setDisp_timerAcc (d : Display) : (s.setDisp d).timerAcc = s.timerAcc := rfl
@[simp] theorem State.setDisp_redraw (d : Display) : (s.setDisp d).redraw = s.redraw := rfl
@[simp] theorem State.setDisp_slots (d : Display) : (s.setDisp d).slots = s.slots := rfl
@[simp] theorem State.setDisp_host (d : Display) : (s.setDisp d).host = s.host := rfl
@[simp] theorem State.setDisp_mayLoad (d : Display) : (s.setDisp d).mayLoad = s.mayLoad := rfl
@[simp] theorem State.setDisp_draws (d : Display) : (s.setDisp d).draws = s.draws := rfl
@[simp] theorem State.setDisp_outputs (d : Display) : (s.setDisp d).outputs = s.outputs := rfl
@[simp] theorem State.setDisp_policies (d : Display) : (s.setDisp d).policies = s.policies := rfl

/-! ### `State.setRedraw` -/

@[simp] theorem State.setRedraw_v (b : Bool) : (s.setRedraw b).v = s.v := rfl
@[simp] theorem State.setRedraw_i (b : Bool) : (s.setRedraw b).i = s.i := rfl
@[simp] theorem State.setRedraw_pc (b : Bool) : (s.setRedraw b).pc = s.pc := rfl
@[simp] theorem State.setRedraw_dt (b : Bool) : (s.setRedraw b).dt = s.dt := rfl
@[simp] theorem State.setRedraw_st (b : Bool) : (s.setRedraw b).st = s.st := rfl
@[simp] theorem State.setRedraw_stack (b : Bool) : (s.setRedraw b).stack = s.stack := rfl
@[simp] theorem State.setRedraw_mem (b : Bool) : (s.setRedraw b).mem = s.mem := rfl
@[simp] theorem State.setRedraw_disp (b : Bool) : (s.setRedraw b).disp = s.disp := rfl
@[simp] theorem State.setRedraw_key (b : Bool) : (s.setRedraw b).key = s.key := rfl
@[simp] theorem State.setRedraw_mode (b : Bool) : (s.setRedraw b).mode = s.mode := rfl
@[simp] theorem State.setRedraw_cycleAcc (b : Bool) : (s.setRedraw b).cycleAcc = s.cycleAcc := rfl
@[simp] theorem State.setRedraw_timerAcc (b : Bool) : (s.setRedraw b).timerAcc = s.timerAcc := rfl
@[simp] theorem State.setRedraw_redraw (b : Bool) : (s.setRedraw b).redraw = b := rfl
@[simp] theorem State.setRedraw_slots (b : Bool) : (s.setRedraw b).slots = s.slots := rfl
@[simp] theorem State.setRedraw_host (b : Bool) : (s.setRedraw b).host = s.host := rfl
@[simp] theorem State.setRedraw_mayLoad (b : Bool) : (s.setRedraw b).mayLoad = s.mayLoad := rfl
@[simp] theorem State.setRedraw_draws (b : Bool) : (s.setRedraw b).draws = s.draws := rfl
@[simp] theorem State.setRedraw_outputs (b : Bool) : (s.setRedraw b).outputs = s.outputs := rfl
@[simp] theorem State.setRedraw_policies (b : Bool) : (s.setRedraw b).policies = s.policies := rfl

/-! ### `State.emit` -/

@[simp] theorem State.emit_v (o : Output) : (s.emit o).v = s.v := rfl
@[simp] theorem State.emit_i (o : Output) : (s.emit o).i = s.i := rfl
@[simp] theorem State.emit_pc (o : Output) : (s.emit o).pc = s.pc := rfl
@[simp] theorem State.emit_dt (o : Output) : (s.emit o).dt = s.dt := rfl
@[simp] theorem State.emit_st (o : Output) : (s.emit o).st = s.st := rfl
@[simp] theorem State.emit_stack (o : Output) : (s.emit o).stack = s.stack := rfl
@[simp] theorem State.emit_mem (o : Output) : (s.emit o).mem = s.mem := rfl
@[simp] theorem State.emit_disp (o : Output) : (s.emit o).disp = s.disp := rfl
@[simp] theorem State.emit_key (o : Output) : (s.emit o).key = s.key := rfl
@[simp] theorem State.emit_mode (o : Output) : (s.emit o).mode = s.mode := rfl
@[simp] theorem State.emit_cycleAcc (o : Output) : (s.emit o).cycleAcc = s.cycleAcc := rfl
@[simp] theorem State.emit_timerAcc (o : Output) : (s.emit o).timerAcc = s.timerAcc := rfl
@[simp] theorem State.emit_redraw (o : Output) : (s.emit o).redraw = s.redraw := rfl
@[simp] theorem State.emit_slots (o : Output) : (s.emit o).slots = s.slots := rfl
@[simp] theorem State.emit_host (o : Output) : (s.emit o).host = s.host := rfl
@[simp] theorem State.emit_mayLoad (o : Output) : (s.emit o).mayLoad = s.mayLoad := rfl
@[simp] theorem State.emit_draws (o : Output) : (s.emit o).draws = s.draws := rfl
@[simp] theorem State.emit_outputs (o : Output) : (s.emit o).outputs = s.outputs ++ [o] := rfl
@[simp] theorem State.emit_policies (o : Output) : (s.emit o).policies = s.policies := rfl

/-! ### `State.countDraw` -/

@[simp] theorem State.countDraw_v : s.countDraw.v = s.v := rfl
@[simp] theorem State.countDraw_i : s.countDraw.i = s.i := rfl
@[simp] theorem State.countDraw_pc : s.countDraw.pc = s.pc := rfl
@[simp] theorem State.countDraw_dt : s.countDraw.dt = s.dt := rfl
@[simp] theorem State.countDraw_st : s.countDraw.st = s.st := rfl
@[simp] theorem State.countDraw_stack : s.countDraw.stack = s.stack := rfl
@[simp] theorem State.countDraw_mem : s.countDraw.mem = s.mem := rfl
@[simp] theorem State.countDraw_disp : s.countDraw.disp = s.disp := rfl
@[simp] theorem State.countDraw_key : s.countDraw.key = s.key := rfl
@[simp] theorem State.countDraw_mode : s.countDraw.mode = s.mode := rfl
@[simp] theorem State.countDraw_cycleAcc : s.countDraw.cycleAcc = s.cycleAcc := rfl
@[simp] theorem State.countDraw_timerAcc : s.countDraw.timerAcc = s.timerAcc := rfl
@[simp] theorem State.countDraw_redraw : s.countDraw.redraw = s.redraw := rfl
@[simp] theorem State.countDraw_slots : s.countDraw.slots = s.slots := rfl
@[simp] theorem State.countDraw_host : s.countDraw.host = s.host := rfl
@[simp] theorem State.countDraw_mayLoad : s.countDraw.mayLoad = s.mayLoad := rfl
@[simp] theorem State.countDraw_draws : s.countDraw.draws = s.draws + 1 := rfl
@[simp] theorem State.countDraw_outputs : s.countDraw.outputs = s.outputs := rfl
@[simp] theorem State.countDraw_policies : s.countDraw.policies = s.policies := rfl

/-! ### `State.setTime` -/

@[simp] theorem State.setTime_v (p q : Rat) : (s.setTime p q).v = s.v := rfl
@[simp] theorem State.setTime_i (p q : Rat) : (s.setTime p q).i = s.i := rfl
@[simp] theorem State.setTime_pc (p q : Rat) : (s.setTime p q).pc = s.pc := rfl
@[simp] theorem State.setTime_dt (p q : Rat) : (s.setTime p q).dt = s.dt := rfl
@[simp] theorem State.setTime_st (p q : Rat) : (s.setTime p q).st = s.st := rfl
@[simp] theorem State.setTime_stack (p q : Rat) : (s.setTime p q).stack = s.stack := rfl
@[simp] theorem State.setTime_mem (p q : Rat) : (s.setTime p q).mem = s.mem := rfl
@[simp] theorem State.setTime_disp (p q : Rat) : (s.setTime p q).disp = s.disp := rfl
@[simp] theorem State.setTime_key (p q : Rat) : (s.setTime p q).key = s.key := rfl
@[simp] theorem State.setTime_mode (p q : Rat) : (s.setTime p q).mode = s.mode := rfl
@[simp] theorem State.setTime_cycleAcc (p q : Rat) : (s.setTime p q).cycleAcc = p := rfl
@[simp] theorem State.setTime_timerAcc (p q : Rat) : (s.setTime p q).timerAcc = q := rfl
@[simp] theorem State.setTime_redraw (p q : Rat) : (s.setTime p q).redraw = s.redraw := rfl
@[simp] theorem State.setTime_slots (p q : Rat) : (s.setTime p q).slots = s.slots := rfl
@[simp] theorem State.setTime_host (p q : Rat) : (s.setTime p q).host = s.host := rfl
@[simp] theorem State.setTime_mayLoad (p q : Rat) : (s.setTime p q).mayLoad = s.mayLoad := rfl
@[simp] theorem State.setTime_draws (p q : Rat) : (s.setTime p q).draws = s.draws := rfl
@[simp] theorem State.setTime_outputs (p q : Rat) : (s.setTime p q).outputs = s.outputs := rfl
@[simp] theorem State.setTime_policies (p q : Rat) : (s.setTime p q).policies = s.policies := rfl

/-! ### `State.setSlots` -/

@[simp] theorem State.setSlots_v (l : Option (List Slot)) : (s.setSlots l).v = s.v := rfl
@[simp] theorem State.setSlots_i (l : Option (List Slot)) : (s.setSlots l).i = s.i := rfl
@[simp] theorem State.setSlots_pc (l : Option (List Slot)) : (s.setSlots l).pc = s.pc := rfl
@[simp] theorem State.setSlots_dt (l : Option (List Slot)) : (s.setSlots l).dt = s.dt := rfl
@[simp] theorem State.setSlots_st (l : Option (List Slot)) : (s.setSlots l).st = s.st := rfl
@[simp] theorem State.setSlots_stack (l : Option (List Slot)) : (s.setSlots l).stack = s.stack := rfl
@[simp] theorem State.setSlots_mem (l : Option (List Slot)) : (s.setSlots l).mem = s.mem := rfl
@[simp] theorem State.setSlots_disp (l : Option (List Slot)) : (s.setSlots l).disp = s.disp := rfl
@[simp] theorem State.setSlots_key (l : Option (List Slot)) : (s.setSlots l).key = s.key := rfl
@[simp] theorem State.setSlots_mode (l : Option (List Slot)) : (s.setSlots l).mode = s.mode := rfl
@[simp] theorem State.setSlots_cycleAcc (l : Option (List Slot)) : (s.setSlots l).cycleAcc = s.cycleAcc := rfl
@[simp] theorem State.setSlots_timerAcc (l : Option (List Slot)) : (s.setSlots l).timerAcc = s.timerAcc := rfl
@[simp] theorem State.setSlots_redraw (l : Option (List Slot)) : (s.setSlots l).redraw = s.redraw := rfl
@[simp] theorem State.setSlots_slots (l : Option (List Slot)) : (s.setSlots l).slots = l := rfl
@[simp] theorem State.setSlots_host (l : Option (List Slot)) : (s.setSlots l).host = s.host := rfl
@[simp] theorem State.setSlots_mayLoad (l : Option (List Slot)) : (s.setSlots l).mayLoad = s.mayLoad := rfl
@[simp] theorem State.setSlots_draws (l : Option (List Slot)) : (s.setSlots l).draws = s.draws := rfl
@[simp] theorem State.setSlots_outputs (l : Option (List Slot)) : (s.setSlots l).outputs = s.outputs := rfl
@[simp] theorem State.setSlots_policies (l : Option (List Slot)) : (s.setSlots l).policies = s.policies := rfl

/-! ### `State.setHost` -/

@[simp] theorem State.setHost_v (l : List HostCall) : (s.setHost l).v = s.v := rfl
@[simp] theorem State.setHost_i (l : List HostCall) : (s.setHost l).i = s.i := rfl
@[simp] theorem State.setHost_pc (l : List HostCall) : (s.setHost l).pc = s.pc := rfl
@[simp] theorem State.setHost_dt (l : List HostCall) : (s.setHost l).dt = s.dt := rfl
@[simp] theorem State.setHost_st (l : List HostCall) : (s.setHost l).st = s.st := rfl
@[simp] theorem State.setHost_stack (l : List HostCall) : (s.setHost l).stack = s.stack := rfl
@[simp] theorem State.setHost_mem (l : List HostCall) : (s.setHost l).mem = s.mem := rfl
@[simp] theorem State.setHost_disp (l : List HostCall) : (s.setHost l).disp = s.disp := rfl
@[simp] theorem State.setHost_key (l : List HostCall) : (s.setHost l).key = s.key := rfl
@[simp] theorem State.setHost_mode (l : List HostCall) : (s.setHost l).mode = s.mode := rfl
@[simp] theorem State.setHost_cycleAcc (l : List HostCall) : (s.setHost l).cycleAcc = s.cycleAcc := rfl
@[simp] theorem State.setHost_timerAcc (l : List HostCall) : (s.setHost l).timerAcc = s.timerAcc := rfl
@[simp] theorem State.setHost_redraw (l : List HostCall) : (s.setHost l).redraw = s.redraw := rfl
@[simp] theorem State.setHost_slots (l : List HostCall) : (s.setHost l).slots = s.slots := rfl
@[simp] theorem State.setHost_host (l : List HostCall) : (s.setHost l).host = l := rfl
@[simp] theorem State.setHost_mayLoad (l : List HostCall) : (s.setHost l).mayLoad = s.mayLoad := rfl
@[simp] theorem State.setHost_draws (l : List HostCall) : (s.setHost l).draws = s.draws := rfl
@[simp] theorem State.setHost_outputs (l : List HostCall) : (s.setHost l).outputs = s.outputs := rfl
@[simp] theorem State.setHost_policies (l : List HostCall) : (s.setHost l).policies = s.policies := rfl

/-! ### `State.closeLoading` -/

@[simp] theorem State.closeLoading_v : s.closeLoading.v = s.v := rfl
@[simp] theorem State.closeLoading_i : s.closeLoading.i = s.i := rfl
@[simp] theorem State.closeLoading_pc : s.closeLoading.pc = s.pc := rfl
@[simp] theorem State.closeLoading_dt : s.closeLoading.dt = s.dt := rfl
@[simp] theorem State.closeLoading_st : s.closeLoading.st = s.st := rfl
@[simp] theorem State.closeLoading_stack : s.closeLoading.stack = s.stack := rfl
@[simp] theorem State.closeLoading_mem : s.closeLoading.mem = s.mem := rfl
@[simp] theorem State.closeLoading_disp : s.closeLoading.disp = s.disp := rfl
@[simp] theorem State.closeLoading_key : s.closeLoading.key = s.key := rfl
@[simp] theorem State.closeLoading_mode : s.closeLoading.mode = s.mode := rfl
@[simp] theorem State.closeLoading_cycleAcc : s.closeLoading.cycleAcc = s.cycleAcc := rfl
@[simp] theorem State.closeLoading_timerAcc : s.closeLoading.timerAcc = s.timerAcc := rfl
@[simp] theorem State.closeLoading_redraw : s.closeLoading.redraw = s.redraw := rfl
@[simp] theorem State.closeLoading_slots : s.closeLoading.slots = s.slots := rfl
@[simp] theorem State.closeLoading_host : s.closeLoading.host = s.host := rfl
@[simp] theorem State.closeLoading_mayLoad : s.closeLoading.mayLoad = false := rfl
@[simp] theorem State.closeLoading_draws : s.closeLoading.draws = s.draws := rfl
@[simp] theorem State.closeLoading_outputs : s.closeLoading.outputs = s.outputs := rfl
@[simp] theorem State.closeLoading_policies : s.closeLoading.policies = s.policies := rfl

end Sys2Proof.Machine
end

