-- ==== Sys2Proof/Laws/Memory.lean ====
section
/-! SUPPORT. The laws of memory (20_memory.md): a read after a write, and the canonical form, which every memory operation keeps. -/

namespace Sys2Proof.Machine

theorem cellOf_lt (a : Nat) : cellOf a < 0x1000 := Nat.mod_lt _ (by decide)

@[simp] theorem cellOf_cellOf (a : Nat) : cellOf (cellOf a) = cellOf a := Nat.mod_mod _ _

theorem cellOf_eq_self {c : Nat} (h : c < 0x1000) : cellOf c = c := Nat.mod_eq_of_lt h

/-! ### The list of cells -/

variable {f : Font}

theorem Memory.get_forget (m : Memory) (c d : Nat) :
    (m.forget c).get f d = if c = d then Memory.resetByte f d else m.get f d := by
  induction m with
  | nil => simp [Memory.forget, Memory.get]
  | cons e rest ih =>
    obtain ⟨k, x⟩ := e
    by_cases hk : k = c
    · subst hk; by_cases hd : k = d <;> simp_all [Memory.forget, Memory.get]
    · by_cases hd : k = d
      · subst hd; simp [Memory.forget, Memory.get, hk, Ne.symm hk]
      · simp [Memory.forget, Memory.get, hk, hd, ih]

theorem Memory.get_enter (m : Memory) (c d : Nat) (b : Byte) (hm : m.forget c = m) :
    (m.enter c b).get f d = if c = d then b else m.get f d := by
  induction m with
  | nil => simp [Memory.enter, Memory.get]
  | cons e rest ih =>
    obtain ⟨k, x⟩ := e
    have hk : k ≠ c := by
      rintro rfl
      have hlen : ∀ l : Memory, (l.forget k).length ≤ l.length := by
        intro l
        induction l with
        | nil => simp [Memory.forget]
        | cons e l ih => obtain ⟨j, y⟩ := e; by_cases hj : j = k <;> simp [Memory.forget, hj] <;> omega
      have := congrArg List.length hm
      have := hlen rest
      simp [Memory.forget] at *
      omega
    have hrest : Memory.forget rest c = rest := by simpa [Memory.forget, hk] using hm
    by_cases hck : c < k
    · simp [Memory.enter, hck, Memory.get]
    · by_cases hd : k = d
      · subst hd; simp [Memory.enter, hck, Memory.get, Ne.symm hk]
      · simp [Memory.enter, hck, Memory.get, hd, ih hrest]

theorem Memory.forget_forget (m : Memory) (c : Nat) : (m.forget c).forget c = m.forget c := by
  induction m with
  | nil => rfl
  | cons e rest ih => obtain ⟨k, x⟩ := e; by_cases hk : k = c <;> simp [Memory.forget, hk, ih]

/-- A read of any cell after a write of any cell. -/
theorem Memory.get_put (m : Memory) (c d : Nat) (b : Byte) : (m.put f c b).get f d = if c = d then b else m.get f d := by
  by_cases hb : b = Memory.resetByte f c
  · by_cases hd : c = d
    · subst hd; simp [Memory.put, hb, Memory.get_forget]
    · simp [Memory.put, hb, Memory.get_forget, hd]
  · rw [Memory.put, if_neg hb, Memory.get_enter _ _ _ _ (Memory.forget_forget m c), Memory.get_forget]
    by_cases hd : c = d <;> simp [hd]

/-! ### The canonical form -/

theorem Memory.wfFrom_cons {lo k : Nat} {b : Byte} {rest : Memory} :
    Memory.wfFrom f lo ((k, b) :: rest) = true ↔
      lo ≤ k ∧ k < 0x1000 ∧ b ≠ Memory.resetByte f k ∧ Memory.wfFrom f (k + 1) rest = true := by
  simp [Memory.wfFrom, and_assoc]

theorem Memory.wfFrom_mono {m : Memory} {lo lo' : Nat} (h : lo' ≤ lo) (hm : Memory.wfFrom f lo m = true) :
    Memory.wfFrom f lo' m = true := by
  cases m with
  | nil => rfl
  | cons e rest =>
    obtain ⟨k, b⟩ := e
    rw [Memory.wfFrom_cons] at hm ⊢
    exact ⟨by omega, hm.2⟩

/-- Below its first cell, a canonical list says nothing. -/
theorem Memory.get_of_lt {m : Memory} {lo c : Nat} (hm : Memory.wfFrom f lo m = true) (hc : c < lo) :
    Memory.get f m c = Memory.resetByte f c := by
  induction m generalizing lo with
  | nil => rfl
  | cons e rest ih =>
    obtain ⟨k, b⟩ := e
    rw [Memory.wfFrom_cons] at hm
    have hk : k ≠ c := by omega
    simpa [Memory.get, hk] using ih hm.2.2.2 (by omega)

theorem Memory.wfFrom_forget {m : Memory} {lo : Nat} (c : Nat) (hm : Memory.wfFrom f lo m = true) :
    Memory.wfFrom f lo (m.forget c) = true := by
  induction m generalizing lo with
  | nil => rfl
  | cons e rest ih =>
    obtain ⟨k, b⟩ := e
    rw [Memory.wfFrom_cons] at hm
    by_cases hk : k = c
    · simpa [Memory.forget, hk] using Memory.wfFrom_mono (by omega) (ih hm.2.2.2)
    · simp only [Memory.forget, hk, if_false, Memory.wfFrom_cons]
      exact ⟨hm.1, hm.2.1, hm.2.2.1, ih hm.2.2.2⟩

theorem Memory.wfFrom_enter {m : Memory} {lo c : Nat} {b : Byte} (hm : Memory.wfFrom f lo (m.forget c) = true) (hlo : lo ≤ c)
    (hc : c < 0x1000) (hb : b ≠ Memory.resetByte f c) : Memory.wfFrom f lo ((m.forget c).enter c b) = true := by
  induction m generalizing lo with
  | nil =>
    rw [Memory.forget, Memory.enter, Memory.wfFrom_cons]
    exact ⟨hlo, hc, hb, rfl⟩
  | cons e rest ih =>
    obtain ⟨k, x⟩ := e
    by_cases hk : k = c
    · simp only [Memory.forget, hk, if_true] at hm ⊢
      exact ih hm hlo
    · simp only [Memory.forget, hk, if_false, Memory.wfFrom_cons] at hm ⊢
      by_cases hck : c < k
      · simp only [Memory.enter, hck, if_true, Memory.wfFrom_cons]
        exact ⟨hlo, hc, hb, by omega, hm.2⟩
      · simp only [Memory.enter, hck, if_false, Memory.wfFrom_cons]
        exact ⟨hm.1, hm.2.1, hm.2.2.1, ih hm.2.2.2 (by omega)⟩

/-- A canonical memory stays canonical under every write of a cell. -/
theorem Memory.wf_put {m : Memory} {c : Nat} (b : Byte) (hm : m.wf f = true) (hc : c < 0x1000) : (m.put f c b).wf f = true := by
  by_cases hb : b = Memory.resetByte f c
  · simpa [Memory.put, hb, Memory.wf] using Memory.wfFrom_forget c hm
  · simpa [Memory.put, hb, Memory.wf] using Memory.wfFrom_enter (Memory.wfFrom_forget c hm) (Nat.zero_le c) hc hb

/-! ### Reads and writes of the state -/

/-- A read at any address after a write at any address: the two reach one cell exactly when their low 12 bits agree (R52). -/
theorem State.readMem_writeMem (s : State) (a d : Nat) (b : Byte) :
    (s.writeMem a b).readMem d = if cellOf a = cellOf d then b else s.readMem d := by
  simp [State.readMem, Memory.get_put]

theorem State.wf_writeMem {s : State} (a : Nat) (b : Byte) (h : s.mem.wf s.policies.font = true) :
    (s.writeMem a b).mem.wf s.policies.font = true :=
  Memory.wf_put b h (cellOf_lt a)

/-- A sequence of writes changes memory and nothing else. -/
theorem State.writeBytes_eq (s : State) (a : Nat) (bs : List Byte) :
    s.writeBytes a bs = { s with mem := (s.writeBytes a bs).mem } := by
  induction bs generalizing s a with
  | nil => rfl
  | cons b bs ih => rw [State.writeBytes, ih (s.writeMem a b) (a + 1)]; rfl

theorem State.wf_writeBytes {s : State} (a : Nat) (bs : List Byte) (h : s.mem.wf s.policies.font = true) :
    (s.writeBytes a bs).mem.wf s.policies.font = true := by
  induction bs generalizing s a with
  | nil => exact h
  | cons b bs ih => exact ih (s := s.writeMem a b) (a + 1) (State.wf_writeMem a b h)

/-- A cell that no address of the sequence reaches keeps its byte. -/
theorem State.readMem_writeBytes_of_ne (s : State) (a d : Nat) (bs : List Byte)
    (h : ∀ k < bs.length, cellOf (a + k) ≠ cellOf d) : (s.writeBytes a bs).readMem d = s.readMem d := by
  induction bs generalizing s a with
  | nil => rfl
  | cons b bs ih =>
    have h0 : cellOf a ≠ cellOf d := h 0 (by simp)
    rw [State.writeBytes, ih, State.readMem_writeMem, if_neg h0]
    intro k hk
    have := h (k + 1) (by simpa using hk)
    rwa [show a + (k + 1) = a + 1 + k by omega] at this

/-- Where the sequence is no longer than memory, each of its addresses reads back its own byte. -/
theorem State.readMem_writeBytes (s : State) (a k : Nat) (bs : List Byte) (hk : k < bs.length) (hl : bs.length ≤ 0x1000) :
    (s.writeBytes a bs).readMem (a + k) = bs[k] := by
  induction bs generalizing s a k with
  | nil => simp at hk
  | cons b bs ih =>
    cases k with
    | zero =>
      rw [State.writeBytes, State.readMem_writeBytes_of_ne, State.readMem_writeMem]
      · simp
      · intro j hj
        simp only [List.length_cons] at hl
        simp only [cellOf]
        omega
    | succ k =>
      simp only [List.length_cons] at hk hl
      rw [State.writeBytes, show a + (k + 1) = a + 1 + k by omega, ih (s.writeMem a b) (a + 1) k (by omega) (by omega)]
      simp

end Sys2Proof.Machine
end

