-- ==== Sys2Proof/Laws/Registers.lean ====
section
/-! SUPPORT. The laws of the register, stack and key operations (10_state.md), and of the flag computations (42_alu.md). -/

namespace Sys2Proof.Machine

/-- A read of any register after a write of any register: no aliases (R20). -/
theorem State.getV_setV (s : State) (q r : Reg) (b : Byte) : (s.setV r b).getV q = if r = q then b else s.getV q := by
  by_cases h : r = q
  · subst h; simp [State.getV]
  · have : (r : Nat) ≠ q := fun e => h (Fin.ext e)
    simp [State.getV, h, this]

@[simp] theorem State.getV_setV_self (s : State) (r : Reg) (b : Byte) : (s.setV r b).getV r = b := by
  simp [State.getV_setV]

theorem State.getV_setV_of_ne (s : State) {q r : Reg} (b : Byte) (h : r ≠ q) : (s.setV r b).getV q = s.getV q := by
  simp [State.getV_setV, h]

/-- `V` is read from the field `v` alone. -/
theorem State.getV_congr {s t : State} (h : t.v = s.v) (r : Reg) : t.getV r = s.getV r := by rw [State.getV, h, State.getV]

/-- Memory is read from the field `mem`, and where it lists nothing from the font the machine was constructed with. -/
theorem State.readMem_congr {s t : State} (h : t.mem = s.mem) (hp : t.policies = s.policies) (a : Nat) :
    t.readMem a = s.readMem a := by
  rw [State.readMem, h, hp, State.readMem]

/-- The flag is written after the result: VF holds the flag whatever the destination (R161). -/
@[simp] theorem State.getV_setResultFlag_VF (s : State) (x : Reg) (a b : Byte) : (s.setResultFlag x a b).getV VF = b := by
  simp [State.setResultFlag]

theorem State.getV_setResultFlag (s : State) {x : Reg} (a b : Byte) (h : x ≠ VF) : (s.setResultFlag x a b).getV x = a := by
  rw [State.setResultFlag, State.getV_setV_of_ne _ _ (Ne.symm h), State.getV_setV_self]

/-! ### Stack (R29, R30) -/

/-- What `Push` can do. -/
theorem State.push_cases (s : State) (a : Word) :
    (s.stack.length < 16 ∧ s.push a = some (s.setStack (s.stack ++ [a]))) ∨ (16 ≤ s.stack.length ∧ s.push a = none) := by
  by_cases h : s.stack.length < 16
  · exact .inl ⟨h, by simp [State.push, maxDepth, h]⟩
  · exact .inr ⟨by omega, by simp [State.push, maxDepth, h]⟩

/-- What `Pop` can do. -/
theorem State.pop_cases (s : State) :
    (∃ l a, s.stack = l ++ [a] ∧ s.pop = some (a, s.setStack l)) ∨ (s.stack = [] ∧ s.pop = none) := by
  rcases List.eq_nil_or_concat s.stack with h | ⟨l, a, h⟩
  · exact .inr ⟨h, by simp [State.pop, h]⟩
  · rw [List.concat_eq_append] at h
    exact .inl ⟨l, a, h, by simp [State.pop, h]⟩

/-! ### Flag computations (R168 to R174) -/

theorem toNat_addCarry (a b : Byte) : (addCarry a b).1.toNat = (a.toNat + b.toNat) % 256 := by simp [addCarry]

theorem addCarry_flag (a b : Byte) : (addCarry a b).2 = if a.toNat + b.toNat > 255 then 1 else 0 := by
  simp [addCarry, flagByte]

theorem toNat_subFlag (p : SubWrap) (l r : Byte) :
    (subFlag p l r).1.toNat =
      if l.toNat ≥ r.toNat then l.toNat - r.toNat
      else if p = .observed then 0xFF - (r.toNat - l.toNat) else 0x100 - (r.toNat - l.toNat) := by
  have := l.isLt
  have := r.isLt
  by_cases h : r.toNat ≤ l.toNat
  · simp only [subFlag, ge_iff_le, h, if_true, BitVec.toNat_ofNat]
    omega
  · cases p <;> simp only [subFlag, ge_iff_le, h, if_false, BitVec.toNat_ofNat, if_true, reduceCtorEq] <;> omega

theorem subFlag_flag (p : SubWrap) (l r : Byte) : (subFlag p l r).2 = if l.toNat ≥ r.toNat then 1 else 0 := by
  by_cases h : r.toNat ≤ l.toNat <;> cases p <;> simp [subFlag, h]

theorem toNat_shiftRight (a : Byte) : (shiftRight a).1.toNat = a.toNat / 2 := by
  simp [shiftRight, Nat.shiftRight_eq_div_pow]

theorem toNat_shiftRight_flag (a : Byte) : (shiftRight a).2.toNat = a.toNat % 2 := by
  simp [shiftRight, Nat.and_one_is_mod]

theorem toNat_shiftLeft (a : Byte) : (shiftLeft a).1.toNat = 2 * a.toNat % 256 := by
  simp [shiftLeft, Nat.shiftLeft_eq, Nat.mul_comm]

theorem toNat_shiftLeft_flag (a : Byte) : (shiftLeft a).2.toNat = a.toNat / 128 := by
  have := a.isLt
  simp [shiftLeft, Nat.and_one_is_mod, Nat.shiftRight_eq_div_pow]
  omega

end Sys2Proof.Machine
end

