-- ==== Sys2Proof/Laws/Frames.lean ====
section
/-! SUPPORT. What each operation the meanings use leaves unchanged, once, as a `Keeps`. -/

namespace Sys2Proof.Machine

variable (s : State)

/-- A wider footprint holds too. -/
theorem Keeps.mono {f g : Footprint} {s t : State} (h : Keeps f s t) (hr : f.regs ⊆ g.regs) (hc : f.cells ⊆ g.cells)
    (hi : g.i = false → f.i = false) (hpc : g.pc = false → f.pc = false) (hdt : g.dt = false → f.dt = false)
    (hst : g.st = false → f.st = false) (hs : g.stack = false → f.stack = false) (hd : g.disp = false → f.disp = false)
    (hm : g.mode = false → f.mode = false) (hrd : g.redraw = false → f.redraw = false)
    (hdr : g.draws = false → f.draws = false) (ho : g.outputs = false → f.outputs = false) : Keeps g s t where
  regs r hr' := h.regs r fun h' => hr' (hr h')
  memory a ha := h.memory a fun h' => ha (hc h')
  i e := h.i (hi e)
  pc e := h.pc (hpc e)
  dt e := h.dt (hdt e)
  st e := h.st (hst e)
  stack e := h.stack (hs e)
  disp e := h.disp (hd e)
  mode e := h.mode (hm e)
  redraw e := h.redraw (hrd e)
  draws e := h.draws (hdr e)
  outputs e := h.outputs (ho e)
  key := h.key
  cycleAcc := h.cycleAcc
  timerAcc := h.timerAcc
  slots := h.slots
  host := h.host
  mayLoad := h.mayLoad
  policies := h.policies

theorem keeps_refl : Keeps {} s s := by constructor <;> intros <;> rfl

theorem keeps_setV (r : Reg) (b : Byte) : Keeps { regs := [r] } s (s.setV r b) := by
  constructor <;> first | (intros; rfl) | skip
  intro q hq
  exact State.getV_setV_of_ne s b fun h => hq (by simp [h])

theorem keeps_setResultFlag (x : Reg) (a b : Byte) : Keeps { regs := [x, VF] } s (s.setResultFlag x a b) := by
  constructor <;> first | (intros; rfl) | skip
  intro q hq
  rw [State.setResultFlag, State.getV_setV_of_ne _ _ fun h => hq (by simp [h]),
    State.getV_setV_of_ne _ _ fun h => hq (by simp [h])]

theorem keeps_setPc (a : Word) : Keeps { pc := true } s (s.setPc a) := by
  constructor <;> first | (intros; rfl) | simp

theorem keeps_skipIf (c : Bool) : Keeps { pc := true } s (s.skipIf c) := by
  cases c
  · exact (keeps_refl s).mono (by simp) (by simp) (by simp) (by simp) (by simp) (by simp) (by simp) (by simp) (by simp)
      (by simp) (by simp) (by simp)
  · constructor <;> first | (intros; rfl) | simp

theorem keeps_setI (a : Word) : Keeps { i := true } s (s.setI a) := by
  constructor <;> first | (intros; rfl) | simp

theorem keeps_setDt (b : Byte) : Keeps { dt := true } s (s.setDt b) := by
  constructor <;> first | (intros; rfl) | simp

theorem keeps_setSt (b : Byte) : Keeps { st := true } s (s.setSt b) := by
  constructor <;> first | (intros; rfl) | simp

theorem keeps_setMode (m : MacroState) : Keeps { mode := true } s (s.setMode m) := by
  constructor <;> first | (intros; rfl) | simp

theorem keeps_setStack_setPc (l : List Word) (a : Word) : Keeps { pc := true, stack := true } s ((s.setStack l).setPc a) := by
  constructor <;> first | (intros; rfl) | simp

theorem keeps_emit (o : Output) : Keeps { outputs := true } s (s.emit o) := by
  constructor <;> first | (intros; rfl) | simp

theorem keeps_clear (d : Display) : Keeps { disp := true, redraw := true } s ((s.setDisp d).requestRedraw) := by
  constructor <;> first | (intros; rfl) | simp

theorem keeps_setV_countDraw (r : Reg) (b : Byte) : Keeps { regs := [r], draws := true } s ((s.setV r b).countDraw) := by
  constructor <;> first | (intros; rfl) | (simp; done) | skip
  intro q hq
  exact (keeps_setV s r b).regs q hq

/-- A sequence of writes changes the cells its addresses reach and nothing else. -/
theorem keeps_writeBytes (a : Nat) (bs : List Byte) : Keeps { cells := cellsFrom a bs.length } s (s.writeBytes a bs) := by
  rw [State.writeBytes_eq]
  constructor <;> first | (intros; rfl) | skip
  intro d hd
  rw [← State.writeBytes_eq]
  have := State.readMem_writeBytes_of_ne s a d bs fun k hk e => hd (by
    simp only [cellsFrom, List.mem_map, List.mem_range]
    exact ⟨k, hk, e⟩)
  exact this

end Sys2Proof.Machine
end

