-- ==== Sys2Proof/Laws/Display.lean ====
section
/-! SUPPORT. What a sprite draw leaves in each pixel, and when it collides (44_display.md R211 to R213). -/

namespace Sys2Proof.Machine

theorem getLsbD_pixelBit (x X : Fin 64) (b : Bool) : (pixelBit x b).getLsbD X.val = (b && decide (x = X)) := by
  cases b
  · simp [pixelBit]
  · simp only [pixelBit, if_true, BitVec.getLsbD_twoPow, Bool.true_and]
    have := X.isLt
    by_cases h : x = X
    · simp [h]
    · have : x.val ≠ X.val := fun e => h (Fin.ext e)
      simp [h, this]

/-- The sprite bit that the row `b` at column `px` lays over column `X`: `none` where the 8 columns do not reach. -/
def rowBitOver (px : Nat) (b : Byte) (X : Fin 64) : Option Bool :=
  let col := (X.val + 64 - px % 64) % 64
  if col < 8 then some (b.getLsbD (7 - col)) else none

/-- The first `n` columns of a sprite row, for `n ≤ 8`: each column of the display is touched at most once (R213). -/
theorem plotRow_fold (p : CollisionTest) (px : Nat) (b : Byte) (acc : BitVec 64 × Bool) (n : Nat) (hn : n ≤ 8) :
    let r := (List.range n).foldl (fun a col => plot p (Fin.ofNat 64 (px + col)) (b.getLsbD (7 - col)) a) acc
    (∀ X : Fin 64, r.1.getLsbD X.val =
      (acc.1.getLsbD X.val ^^
        (decide ((X.val + 64 - px % 64) % 64 < n) && b.getLsbD (7 - (X.val + 64 - px % 64) % 64)))) ∧
    (r.2 = true ↔ acc.2 = true ∨ ∃ X : Fin 64, (X.val + 64 - px % 64) % 64 < n ∧
      collides p (acc.1.getLsbD X.val) (b.getLsbD (7 - (X.val + 64 - px % 64) % 64)) = true) := by
  induction n with
  | zero => simp
  | succ n ih =>
    obtain ⟨h1, h2⟩ := ih (by omega)
    rw [List.range_succ, List.foldl_append]
    simp only [List.foldl_cons, List.foldl_nil]
    generalize (List.range n).foldl (fun a col => plot p (Fin.ofNat 64 (px + col)) (b.getLsbD (7 - col)) a) acc = r at h1 h2 ⊢
    simp only [plot]
    have hcol : ∀ X : Fin 64, Fin.ofNat 64 (px + n) = X ↔ (X.val + 64 - px % 64) % 64 = n := by
      intro X
      have := X.isLt
      rw [Fin.ext_iff]
      simp only [Fin.ofNat]
      omega
    have hval : ((Fin.ofNat 64 (px + n) : Fin 64).val + 64 - px % 64) % 64 = n := (hcol _).1 rfl
    constructor
    · intro X
      rw [BitVec.getLsbD_xor, h1, getLsbD_pixelBit]
      by_cases hX : (X.val + 64 - px % 64) % 64 = n
      · rw [decide_eq_true ((hcol X).2 hX), hX]
        simp
      · have hne : ¬ Fin.ofNat 64 (px + n) = X := fun e => hX ((hcol X).1 e)
        have hlt : (X.val + 64 - px % 64) % 64 < n + 1 ↔ (X.val + 64 - px % 64) % 64 < n := by omega
        rw [decide_eq_false hne]
        simp [hlt]
    · rw [Bool.or_eq_true, h2, h1, hval]
      simp only [lt_irrefl, decide_false, Bool.false_and, Bool.xor_false]
      constructor
      · rintro ((h | ⟨X, hX, hc⟩) | h)
        · exact .inl h
        · exact .inr ⟨X, by omega, hc⟩
        · exact .inr ⟨Fin.ofNat 64 (px + n), by omega, by rw [hval]; exact h⟩
      · rintro (h | ⟨X, hX, hc⟩)
        · exact .inl (.inl h)
        · by_cases hn' : (X.val + 64 - px % 64) % 64 = n
          · have := (hcol X).2 hn'
            subst this
            rw [hval] at hc
            exact .inr hc
          · exact .inl (.inr ⟨X, by omega, hc⟩)

/-- A sprite row drawn into a display row. -/
theorem plotRow_spec (p : CollisionTest) (px : Nat) (b : Byte) (acc : BitVec 64 × Bool) :
    (∀ X : Fin 64, (plotRow p px b acc).1.getLsbD X.val = (acc.1.getLsbD X.val ^^ (rowBitOver px b X).getD false)) ∧
    ((plotRow p px b acc).2 = true ↔ acc.2 = true ∨ ∃ X : Fin 64, ∃ bit, rowBitOver px b X = some bit ∧
      collides p (acc.1.getLsbD X.val) bit = true) := by
  obtain ⟨h1, h2⟩ := plotRow_fold p px b acc 8 (le_refl 8)
  refine ⟨fun X => ?_, ?_⟩
  · rw [plotRow, h1]
    by_cases hX : (X.val + 64 - px % 64) % 64 < 8 <;> simp [rowBitOver, hX]
  · rw [plotRow, h2]
    refine or_congr_right (exists_congr fun X => ?_)
    by_cases hX : (X.val + 64 - px % 64) % 64 < 8 <;> simp [rowBitOver, hX]

theorem Display.get_set (d : Display) (y Y : Fin 32) (r : BitVec 64) (X : Fin 64) :
    Display.get (d.set y r) X Y = if y = Y then r.getLsbD X.val else d.get X Y := by
  by_cases h : y = Y
  · subst h; simp [Display.get]
  · have : (y : Nat) ≠ Y := fun e => h (Fin.ext e)
    simp [Display.get, h, this]

/-- The sprite bit that the rows `bs` at column `px`, row `py` lay over the pixel `(X, Y)`. -/
def rowsBitOver (px py : Nat) (bs : List Byte) (X : Fin 64) (Y : Fin 32) : Option Bool :=
  match bs[(Y.val + 32 - py % 32) % 32]? with
  | some b => rowBitOver px b X
  | none => none

theorem rowsBitOver_cons (px py : Nat) (b : Byte) (bs : List Byte) (X : Fin 64) (Y : Fin 32) :
    rowsBitOver px py (b :: bs) X Y =
      if Fin.ofNat 32 py = Y then rowBitOver px b X else rowsBitOver px (py + 1) bs X Y := by
  have hY := Y.isLt
  have hrow : Fin.ofNat 32 py = Y ↔ (Y.val + 32 - py % 32) % 32 = 0 := by
    rw [Fin.ext_iff]
    simp only [Fin.ofNat]
    omega
  by_cases h : (Y.val + 32 - py % 32) % 32 = 0
  · rw [if_pos (hrow.2 h)]
    simp [rowsBitOver, h]
  · have hne : ¬ Fin.ofNat 32 py = Y := fun e => h (hrow.1 e)
    obtain ⟨k, hk⟩ := Nat.exists_eq_succ_of_ne_zero h
    have hk' : (Y.val + 32 - (py + 1) % 32) % 32 = k := by omega
    rw [if_neg hne]
    simp [rowsBitOver, hk, hk']

theorem rowsBitOver_own_row (px py : Nat) (bs : List Byte) (X : Fin 64) (hl : bs.length < 32) :
    rowsBitOver px (py + 1) bs X (Fin.ofNat 32 py) = none := by
  have : ((Fin.ofNat 32 py : Fin 32).val + 32 - (py + 1) % 32) % 32 = 31 := by
    simp only [Fin.ofNat]
    omega
  rw [rowsBitOver, this, List.getElem?_eq_none (by omega)]

/-- A sprite of fewer than 32 rows drawn into the display: each pixel is XORed with the bit over it, and a collision is a pixel lit
before the draw under a bit that counts (R211, R212). -/
theorem drawRows_spec (p : CollisionTest) (px py : Nat) (bs : List Byte) (acc : Display × Bool) (hl : bs.length < 32) :
    (∀ X Y, (drawRows p px py bs acc).1.get X Y = (acc.1.get X Y ^^ (rowsBitOver px py bs X Y).getD false)) ∧
    ((drawRows p px py bs acc).2 = true ↔ acc.2 = true ∨ ∃ X Y bit, rowsBitOver px py bs X Y = some bit ∧
      collides p (acc.1.get X Y) bit = true) := by
  induction bs generalizing py acc with
  | nil => simp [drawRows, rowsBitOver]
  | cons b bs ih =>
    simp only [List.length_cons] at hl
    obtain ⟨h1, h2⟩ := ih (py + 1) (drawRow p px (Fin.ofNat 32 py) b acc) (by omega)
    obtain ⟨r1, r2⟩ := plotRow_spec p px b (acc.1[Fin.ofNat 32 py], acc.2)
    have hget : ∀ X Y, (drawRow p px (Fin.ofNat 32 py) b acc).1.get X Y =
        if Fin.ofNat 32 py = Y then acc.1.get X Y ^^ (rowBitOver px b X).getD false else acc.1.get X Y := by
      intro X Y
      simp only [drawRow]
      rw [Display.get_set]
      by_cases h : Fin.ofNat 32 py = Y
      · rw [if_pos h, if_pos h, r1]
        subst h
        rfl
      · rw [if_neg h, if_neg h]
    rw [drawRows]
    constructor
    · intro X Y
      rw [h1, hget, rowsBitOver_cons px py b bs X Y]
      by_cases h : Fin.ofNat 32 py = Y
      · subst h
        simp only [if_true, rowsBitOver_own_row px py bs X (by omega)]
        simp
      · simp only [if_neg h]
    · rw [h2, show (drawRow p px (Fin.ofNat 32 py) b acc).2 = (plotRow p px b (acc.1[Fin.ofNat 32 py], acc.2)).2 from rfl, r2]
      constructor
      · rintro ((h | ⟨X, bit, hb, hc⟩) | ⟨X, Y, bit, hb, hc⟩)
        · exact .inl h
        · exact .inr ⟨X, Fin.ofNat 32 py, bit, by rw [rowsBitOver_cons, if_pos rfl, hb], hc⟩
        · have hne : ¬ Fin.ofNat 32 py = Y := by
            rintro rfl
            rw [rowsBitOver_own_row px py bs X (by omega)] at hb
            cases hb
          rw [hget, if_neg hne] at hc
          exact .inr ⟨X, Y, bit, by rw [rowsBitOver_cons, if_neg hne, hb], hc⟩
      · rintro (h | ⟨X, Y, bit, hb, hc⟩)
        · exact .inl (.inl h)
        · rw [rowsBitOver_cons] at hb
          by_cases h : Fin.ofNat 32 py = Y
          · subst h
            rw [if_pos rfl] at hb
            exact .inl (.inr ⟨X, bit, hb, hc⟩)
          · rw [if_neg h] at hb
            exact .inr ⟨X, Y, bit, hb, by rw [hget, if_neg h]; exact hc⟩

/-! ### DRW -/

/-- Two displays with the same pixels are the same. -/
theorem Display.ext_get {d e : Display} (h : ∀ X Y, d.get X Y = e.get X Y) : d = e := by
  apply Vector.ext
  intro j hj
  apply BitVec.eq_of_getLsbD_eq
  intro i hi
  exact h ⟨i, hi⟩ ⟨j, hj⟩

/-- After VF is reset a coordinate register reads as `spriteCoord` (R212). -/
theorem toNat_getV_after_reset (s : State) (r : Reg) : ((s.setV VF 0).getV r).toNat = spriteCoord s r := by
  rw [spriteCoord, State.getV_setV]
  by_cases h : VF = r
  · simp [h]
  · simp [h, Ne.symm h]

/-- The bit that DRW's rows lay over a pixel is `spriteBitOver`. -/
theorem rowsBitOver_spriteBytes (s : State) (x y : Reg) (n : Nibble) (X : Fin 64) (Y : Fin 32) :
    rowsBitOver ((s.setV VF 0).getV x).toNat ((s.setV VF 0).getV y).toNat ((s.setV VF 0).spriteBytes n) X Y =
      spriteBitOver s x y n X Y := by
  rw [toNat_getV_after_reset, toNat_getV_after_reset]
  unfold rowsBitOver spriteBitOver rowBitOver
  by_cases h : (Y.val + 32 - spriteCoord s y % 32) % 32 < n.toNat
  · rw [List.getElem?_eq_getElem (by simpa [State.spriteBytes] using h)]
    simp [State.spriteBytes, State.indexAddr, h, State.readMem]
  · rw [List.getElem?_eq_none (by simpa [State.spriteBytes] using h)]
    simp [h]

theorem State.length_spriteBytes (s : State) (n : Nibble) : (s.spriteBytes n).length < 32 := by
  have := n.isLt
  simp only [State.spriteBytes, List.length_map, List.length_range]
  omega

/-- DRW changes VF, the display and the redraw flag, and nothing else. -/
theorem keeps_drw (s : State) (d : Display) (a b : Byte) :
    Keeps { regs := [VF], disp := true, redraw := true } s ((((s.setV VF a).setDisp d).setV VF b).requestRedraw) := by
  constructor <;> first | (intros; rfl) | (simp; done) | skip
  intro r hr
  have : VF ≠ r := by
    intro h
    simp [h] at hr
  exact (State.getV_setV_of_ne _ _ this).trans (State.getV_setV_of_ne s _ this)

end Sys2Proof.Machine
end

