-- ==== Sys2Proof/Laws/Transfers.lean ====
section
/-! SUPPORT. The register dump and load (43_index_memory.md R195, R196): what each writes, and that it writes nothing else. -/

namespace Sys2Proof.Machine

@[simp] theorem State.length_regsUpTo (s : State) (x : Reg) : (s.regsUpTo x).length = x.val + 1 := by simp [State.regsUpTo]

theorem State.getElem_regsUpTo (s : State) {x r : Reg} (h : r ≤ x) :
    (s.regsUpTo x)[r.val]'(by rw [State.length_regsUpTo]; exact Nat.lt_succ_of_le h) = s.getV r := by
  simp [State.regsUpTo]

/-- The first `n` steps of a register load, for `n ≤ 16`. -/
theorem loadRegs_fold (s t : State) (n : Nat) (hn : n ≤ 16) :
    let u := (List.range n).foldl (fun t k => t.setV (Fin.ofNat 16 k) (s.readMem (s.indexAddr k))) t
    u = { t with v := u.v } ∧ ∀ r : Reg, u.getV r = if r.val < n then s.readMem (s.indexAddr r.val) else t.getV r := by
  induction n with
  | zero => exact ⟨rfl, fun r => by simp⟩
  | succ n ih =>
    obtain ⟨hu, hv⟩ := ih (by omega)
    rw [List.range_succ, List.foldl_append]
    simp only [List.foldl_cons, List.foldl_nil]
    refine ⟨by rw [hu]; rfl, fun r => ?_⟩
    rw [State.getV_setV, hv]
    have hmod : (Fin.ofNat 16 n : Reg).val = n := Nat.mod_eq_of_lt (by omega)
    by_cases hr : r.val = n
    · have : Fin.ofNat 16 n = r := Fin.ext (by rw [hmod, hr])
      rw [if_pos this, if_pos (by omega), hr]
    · have : Fin.ofNat 16 n ≠ r := fun e => hr (by rw [← e, hmod])
      rw [if_neg this]
      exact if_congr (by omega) rfl rfl

/-- A register load changes the registers and nothing else. -/
theorem State.loadRegs_eq (s : State) (x : Reg) : s.loadRegs x = { s with v := (s.loadRegs x).v } :=
  (loadRegs_fold s s (x.val + 1) (by omega)).1

/-- The registers after a load: `V[0]`..`V[x]` from memory, the others as they were. -/
theorem State.getV_loadRegs (s : State) (x r : Reg) :
    (s.loadRegs x).getV r = if r ≤ x then s.readMem (s.i.toNat + r.val) else s.getV r := by
  have := (loadRegs_fold s s (x.val + 1) (by omega)).2 r
  rw [State.loadRegs, this]
  exact if_congr Nat.lt_succ_iff rfl rfl

/-- `I` after a dump or a load (R194). -/
theorem toNat_advancedIndex (p : IndexAdvance) (a : Word) (x : Reg) :
    (advancedIndex p a x).toNat = if p = .advance then (a.toNat + x.val + 1) % 0x10000 else a.toNat := by
  cases p <;> simp [advancedIndex, BitVec.toNat_add, Nat.add_assoc]

theorem keeps_loadRegs_setI (s : State) (x : Reg) (a : Word) :
    Keeps { regs := (List.finRange 16).filter (fun r => decide (r ≤ x)), i := true } s ((s.loadRegs x).setI a) := by
  have he := State.loadRegs_eq s x
  constructor
  case regs =>
    intro r hr
    have hr' : ¬ r ≤ x := fun h => hr (by simp [h])
    rw [show ((s.loadRegs x).setI a).getV r = (s.loadRegs x).getV r from rfl, State.getV_loadRegs, if_neg hr']
  case i => simp
  all_goals (intros; rw [he]; rfl)

theorem keeps_writeBytes_setI (s : State) (a : Nat) (bs : List Byte) (b : Word) :
    Keeps { cells := cellsFrom a bs.length, i := true } s ((s.writeBytes a bs).setI b) := by
  have h := keeps_writeBytes s a bs
  exact ⟨h.regs, h.memory, by simp, h.pc, h.dt, h.st, h.stack, h.disp, h.mode, h.redraw, h.draws, h.outputs, h.key,
    h.cycleAcc, h.timerAcc, h.slots, h.host, h.mayLoad, h.policies⟩

end Sys2Proof.Machine
end

