-- ==== Sys2Proof/Laws/Exec.lean ====
section
/-! SUPPORT. Once for all instructions: what each may change. The whole-machine rules follow from this one lemma. -/

namespace Sys2Proof.Machine

/-- What the instruction `i` may change from the state `s`. -/
def footprint (i : Instr) (s : State) : Footprint :=
  match i with
  | .cls _ => { disp := true, redraw := true }
  | .ret _ => { pc := true, stack := true, mode := true }
  | .call _ => { pc := true, stack := true, mode := true }
  | .jp _ | .jpV0 _ | .seImm _ _ | .sneImm _ _ | .seReg _ _ _ | .sneReg _ _ _ | .skp _ | .sknp _ => { pc := true }
  | .ldImm x _ | .addImm x _ | .ldReg x _ | .orReg x _ | .andReg x _ | .xorReg x _ | .ldVDt x => { regs := [x] }
  | .addReg x _ | .sub x _ | .shr x _ | .subn x _ | .shl x _ => { regs := [x, VF] }
  | .ldI _ | .addI _ | .ldF _ => { i := true }
  | .rnd x _ => { regs := [x], draws := true }
  | .drw _ _ _ => { regs := [VF], disp := true, redraw := true }
  | .ldVK _ => { mode := true }
  | .ldDt _ => { dt := true }
  | .ldSt _ => { st := true }
  | .ldB _ => { cells := cellsFrom s.i.toNat 3 }
  | .ldMemV x => { cells := cellsFrom s.i.toNat (x.val + 1), i := decide (s.policies.indexAdvance = .advance) }
  | .ldVMem x =>
    { regs := (List.finRange 16).filter (fun r => decide (r ≤ x)), i := decide (s.policies.indexAdvance = .advance) }
  | .unknown _ => { outputs := true }

theorem advancedIndex_unchanged {p : IndexAdvance} (a : Word) (x : Reg) (h : decide (p = .advance) = false) :
    advancedIndex p a x = a := by
  cases p
  · rfl
  · simp at h

/-- What RET can do. -/
theorem execRet_cases (z : Nibble) (s : State) :
    (∃ l a, s.stack = l ++ [a] ∧ execRet z s = .next ((s.setStack l).setPc a)) ∨
    (s.stack = [] ∧ execRet z s = .next (s.raiseFault .stackUnderflow (encode (.ret z)))) := by
  rcases State.pop_cases s with ⟨l, a, hs, hp⟩ | ⟨hs, hp⟩
  · exact .inl ⟨l, a, hs, by rw [execRet, hp]⟩
  · exact .inr ⟨hs, by rw [execRet, hp]⟩

/-- What CALL can do. -/
theorem execCall_cases (nnn : Addr12) (s : State) :
    (s.stack.length < 16 ∧ execCall nnn s = .next ((s.setStack (s.stack ++ [s.pc])).setPc (addrWord nnn))) ∨
    (16 ≤ s.stack.length ∧ execCall nnn s = .next (s.raiseFault .stackOverflow (encode (.call nnn)))) := by
  rcases State.push_cases s s.pc with ⟨hs, hp⟩ | ⟨hs, hp⟩
  · exact .inl ⟨hs, by rw [execCall, hp]⟩
  · exact .inr ⟨hs, by rw [execCall, hp]⟩

theorem keeps_jump_or_fault_of_setStack (s : State) (l : List Word) (a : Word) :
    Keeps { pc := true, stack := true, mode := true } s ((s.setStack l).setPc a) :=
  (keeps_setStack_setPc s l a).mono (by simp) (by simp) (by simp) (by simp) (by simp) (by simp) (by simp) (by simp) (by simp)
    (by simp) (by simp) (by simp)

theorem keeps_jump_or_fault_of_raise (s : State) (k : Fault) (w : Word) :
    Keeps { pc := true, stack := true, mode := true } s (s.raiseFault k w) :=
  (keeps_setMode s _).mono (by simp) (by simp) (by simp) (by simp) (by simp) (by simp) (by simp) (by simp) (by simp)
    (by simp) (by simp) (by simp)

/-- Every instruction changes no more than its footprint. -/
theorem exec_keeps {i : Instr} {s t : State} (h : exec i s = .next t) : Keeps (footprint i s) s t := by
  cases i
  case ret z =>
    rcases execRet_cases z s with ⟨l, a, -, e⟩ | ⟨-, e⟩
    · cases h.symm.trans e
      exact keeps_jump_or_fault_of_setStack s l a
    · cases h.symm.trans e
      exact keeps_jump_or_fault_of_raise s _ _
  case call nnn =>
    rcases execCall_cases nnn s with ⟨-, e⟩ | ⟨-, e⟩
    · cases h.symm.trans e
      exact keeps_jump_or_fault_of_setStack s _ _
    · cases h.symm.trans e
      exact keeps_jump_or_fault_of_raise s _ _
  case ldMemV x =>
    cases h
    have k := keeps_writeBytes_setI s (s.indexAddr 0) (s.regsUpTo x) (advancedIndex s.policies.indexAdvance s.i x)
    rw [State.length_regsUpTo] at k
    exact ⟨k.regs, k.memory, advancedIndex_unchanged (p := s.policies.indexAdvance) s.i x, k.pc, k.dt, k.st, k.stack, k.disp,
      k.mode, k.redraw, k.draws, k.outputs, k.key, k.cycleAcc, k.timerAcc, k.slots, k.host, k.mayLoad, k.policies⟩
  case ldVMem x =>
    cases h
    have k := keeps_loadRegs_setI s x (advancedIndex s.policies.indexAdvance s.i x)
    exact ⟨k.regs, k.memory, advancedIndex_unchanged (p := s.policies.indexAdvance) s.i x, k.pc, k.dt, k.st, k.stack, k.disp,
      k.mode, k.redraw, k.draws, k.outputs, k.key, k.cycleAcc, k.timerAcc, k.slots, k.host, k.mayLoad, k.policies⟩
  case ldB x =>
    cases h
    exact keeps_writeBytes s s.i.toNat (decimalDigits (s.getV x))
  case drw x y n =>
    cases h
    exact keeps_drw s _ _ _
  all_goals cases h
  case cls => exact keeps_clear s _
  case unknown => exact keeps_emit s _
  case rnd => exact keeps_setV_countDraw s _ _
  case ldVK => exact keeps_setMode s _
  case ldDt => exact keeps_setDt s _
  case ldSt => exact keeps_setSt s _
  all_goals first
    | exact keeps_setV s _ _
    | exact keeps_setResultFlag s _ _ _
    | exact keeps_skipIf s _
    | exact keeps_setPc s _
    | exact keeps_setI s _

/-- The memory list itself changes only by the two storing instructions. -/
theorem exec_mem {i : Instr} {s t : State} (h : exec i s = .next t) :
    t.mem = s.mem ∨ (∃ x, i = .ldB x ∧ t.mem = (s.writeBytes s.i.toNat (decimalDigits (s.getV x))).mem) ∨
      ∃ x, i = .ldMemV x ∧ t.mem = (s.writeBytes s.i.toNat (s.regsUpTo x)).mem := by
  cases i
  case ret z =>
    rcases execRet_cases z s with ⟨l, a, -, e⟩ | ⟨-, e⟩ <;> cases h.symm.trans e <;> exact .inl rfl
  case call nnn =>
    rcases execCall_cases nnn s with ⟨-, e⟩ | ⟨-, e⟩ <;> cases h.symm.trans e <;> exact .inl rfl
  case seImm x kk => cases h; unfold State.skipIf; split <;> exact .inl rfl
  case sneImm x kk => cases h; unfold State.skipIf; split <;> exact .inl rfl
  case seReg x y z => cases h; unfold State.skipIf; split <;> exact .inl rfl
  case sneReg x y z => cases h; unfold State.skipIf; split <;> exact .inl rfl
  case skp x => cases h; unfold State.skipIf; split <;> exact .inl rfl
  case sknp x => cases h; unfold State.skipIf; split <;> exact .inl rfl
  case ldB x => cases h; exact .inr (.inl ⟨x, rfl, rfl⟩)
  case ldMemV x => cases h; exact .inr (.inr ⟨x, rfl, rfl⟩)
  case ldVMem x => cases h; rw [State.loadRegs_eq]; exact .inl rfl
  all_goals cases h; exact .inl rfl

/-- No instruction leaves memory out of its canonical form. -/
theorem exec_keeps_wf {i : Instr} {s t : State} (h : exec i s = .next t) (hs : s.mem.wf s.policies.font = true) :
    t.mem.wf t.policies.font = true := by
  rw [(exec_keeps h).policies]
  rcases exec_mem h with e | ⟨x, -, e⟩ | ⟨x, -, e⟩
  · rwa [e]
  · rw [e]; exact State.wf_writeBytes _ _ hs
  · rw [e]; exact State.wf_writeBytes _ _ hs

end Sys2Proof.Machine
end

