-- ==== Sys2Proof/Laws/Fields.lean ====
section
/-! SUPPORT. The fields of a word put together from fields, and the bytes of a word (30_encoding.md R71, 20_memory.md R55). -/

namespace Sys2Proof

/-- Two words with the same four nibbles are equal. -/
theorem eq_of_nibbles {v w : Word} (hc : fieldC v = fieldC w) (hx : nibbleX v = nibbleX w) (hy : nibbleY v = nibbleY w)
    (hn : fieldN v = fieldN w) : v = w := by
  have h1 := congrArg BitVec.toNat hc
  have h2 := congrArg BitVec.toNat hx
  have h3 := congrArg BitVec.toNat hy
  have h4 := congrArg BitVec.toNat hn
  simp only [fieldC, nibbleX, nibbleY, fieldN, BitVec.extractLsb'_toNat, Nat.shiftRight_eq_div_pow] at h1 h2 h3 h4
  apply BitVec.eq_of_toNat_eq
  have := v.isLt
  have := w.isLt
  omega

@[simp] theorem toFin_regNibble (r : Reg) : (regNibble r).toFin = r := rfl

@[simp] theorem regNibble_toFin (b : Nibble) : regNibble b.toFin = b := rfl

section
variable (c x y n : Nibble) (kk : Byte) (nnn : Addr12)

theorem toNat_wordAddr : (wordAddr c nnn).toNat = c.toNat * 4096 + nnn.toNat := by
  rw [wordAddr, BitVec.toNat_append, ← Nat.shiftLeft_add_eq_or_of_lt nnn.isLt, Nat.shiftLeft_eq]

theorem toNat_wordByte : (wordByte c x kk).toNat = c.toNat * 4096 + x.toNat * 256 + kk.toNat := by
  rw [wordByte, BitVec.toNat_append, BitVec.toNat_append, ← Nat.shiftLeft_add_eq_or_of_lt kk.isLt,
    ← Nat.shiftLeft_add_eq_or_of_lt x.isLt, Nat.shiftLeft_eq, Nat.shiftLeft_eq]
  omega

theorem toNat_wordNibbles :
    (wordNibbles c x y n).toNat = c.toNat * 4096 + x.toNat * 256 + y.toNat * 16 + n.toNat := by
  have hlow : y.toNat <<< 4 + n.toNat < 2 ^ 8 := by
    have := y.isLt
    have := n.isLt
    rw [Nat.shiftLeft_eq]
    omega
  rw [wordNibbles, BitVec.toNat_append, BitVec.toNat_append, BitVec.toNat_append,
    ← Nat.shiftLeft_add_eq_or_of_lt x.isLt, ← Nat.shiftLeft_add_eq_or_of_lt n.isLt,
    ← Nat.shiftLeft_add_eq_or_of_lt hlow, Nat.shiftLeft_eq, Nat.shiftLeft_eq, Nat.shiftLeft_eq]
  omega

@[simp] theorem fieldC_wordAddr : fieldC (wordAddr c nnn) = c := by
  apply BitVec.eq_of_toNat_eq
  simp only [fieldC, BitVec.extractLsb'_toNat, toNat_wordAddr, Nat.shiftRight_eq_div_pow]
  omega

@[simp] theorem fieldNnn_wordAddr : fieldNnn (wordAddr c nnn) = nnn := by
  apply BitVec.eq_of_toNat_eq
  simp only [fieldNnn, BitVec.extractLsb'_toNat, toNat_wordAddr, Nat.shiftRight_eq_div_pow]
  omega

@[simp] theorem fieldC_wordByte : fieldC (wordByte c x kk) = c := by
  apply BitVec.eq_of_toNat_eq
  simp only [fieldC, BitVec.extractLsb'_toNat, toNat_wordByte, Nat.shiftRight_eq_div_pow]
  omega

@[simp] theorem nibbleX_wordByte : nibbleX (wordByte c x kk) = x := by
  apply BitVec.eq_of_toNat_eq
  simp only [nibbleX, BitVec.extractLsb'_toNat, toNat_wordByte, Nat.shiftRight_eq_div_pow]
  omega

@[simp] theorem fieldKk_wordByte : fieldKk (wordByte c x kk) = kk := by
  apply BitVec.eq_of_toNat_eq
  simp only [fieldKk, BitVec.extractLsb'_toNat, toNat_wordByte, Nat.shiftRight_eq_div_pow]
  omega

@[simp] theorem fieldC_wordNibbles : fieldC (wordNibbles c x y n) = c := by
  apply BitVec.eq_of_toNat_eq
  simp only [fieldC, BitVec.extractLsb'_toNat, toNat_wordNibbles, Nat.shiftRight_eq_div_pow]
  omega

@[simp] theorem nibbleX_wordNibbles : nibbleX (wordNibbles c x y n) = x := by
  apply BitVec.eq_of_toNat_eq
  simp only [nibbleX, BitVec.extractLsb'_toNat, toNat_wordNibbles, Nat.shiftRight_eq_div_pow]
  omega

@[simp] theorem nibbleY_wordNibbles : nibbleY (wordNibbles c x y n) = y := by
  apply BitVec.eq_of_toNat_eq
  simp only [nibbleY, BitVec.extractLsb'_toNat, toNat_wordNibbles, Nat.shiftRight_eq_div_pow]
  omega

@[simp] theorem fieldN_wordNibbles : fieldN (wordNibbles c x y n) = n := by
  apply BitVec.eq_of_toNat_eq
  simp only [fieldN, BitVec.extractLsb'_toNat, toNat_wordNibbles, Nat.shiftRight_eq_div_pow]
  omega

@[simp] theorem fieldX_wordByte : fieldX (wordByte c x kk) = x.toFin := by simp [fieldX]

@[simp] theorem fieldX_wordNibbles : fieldX (wordNibbles c x y n) = x.toFin := by simp [fieldX]

@[simp] theorem fieldY_wordNibbles : fieldY (wordNibbles c x y n) = y.toFin := by simp [fieldY]

end

/-! ### Words rebuilt from their fields -/

theorem wordAddr_fields (w : Word) : wordAddr (fieldC w) (fieldNnn w) = w := by
  apply BitVec.eq_of_toNat_eq
  have := w.isLt
  simp only [toNat_wordAddr, fieldC, fieldNnn, BitVec.extractLsb'_toNat, Nat.shiftRight_eq_div_pow]
  omega

theorem wordByte_fields (w : Word) : wordByte (fieldC w) (nibbleX w) (fieldKk w) = w := by
  apply BitVec.eq_of_toNat_eq
  have := w.isLt
  simp only [toNat_wordByte, fieldC, nibbleX, fieldKk, BitVec.extractLsb'_toNat, Nat.shiftRight_eq_div_pow]
  omega

theorem wordNibbles_fields (w : Word) : wordNibbles (fieldC w) (nibbleX w) (nibbleY w) (fieldN w) = w := by
  apply BitVec.eq_of_toNat_eq
  have := w.isLt
  simp only [toNat_wordNibbles, fieldC, nibbleX, nibbleY, fieldN, BitVec.extractLsb'_toNat, Nat.shiftRight_eq_div_pow]
  omega

/-- The two bytes of a word, put together big-endian, are the word (R55). -/
@[simp] theorem wordOfBytes_bytes (w : Word) : wordOfBytes (highByte w) (lowByte w) = w := by
  apply BitVec.eq_of_toNat_eq
  have := w.isLt
  rw [wordOfBytes, BitVec.toNat_append, ← Nat.shiftLeft_add_eq_or_of_lt (lowByte w).isLt, Nat.shiftLeft_eq]
  simp only [highByte, lowByte, BitVec.extractLsb'_toNat, Nat.shiftRight_eq_div_pow]
  omega

end Sys2Proof
end

