-- ==== Sys2Proof/Laws/PerInstr.lean ====
section
/-! SUPPORT. For every instruction: its word is in its own row of spec/opcode_table.json, and an unknown word is in none. -/

namespace Sys2Proof

/-! ### Words under the three masks of the opcode map (30_encoding.md R80) -/

theorem extract_and (v w : Word) (k : Nat) : (v &&& w).extractLsb' k 4 = v.extractLsb' k 4 &&& w.extractLsb' k 4 := by
  apply BitVec.eq_of_getLsbD_eq
  intro i _
  simp only [BitVec.getLsbD_extractLsb', BitVec.getLsbD_and]
  cases decide (i < 4) <;> simp

theorem fieldC_and (v w : Word) : fieldC (v &&& w) = fieldC v &&& fieldC w := extract_and v w 12

theorem nibbleX_and (v w : Word) : nibbleX (v &&& w) = nibbleX v &&& nibbleX w := extract_and v w 8

theorem nibbleY_and (v w : Word) : nibbleY (v &&& w) = nibbleY v &&& nibbleY w := extract_and v w 4

theorem fieldN_and (v w : Word) : fieldN (v &&& w) = fieldN v &&& fieldN w := extract_and v w 0

/-- The mask of a row that fixes the class. -/
theorem and_classMask (w : Word) : w &&& 0xF000 = wordNibbles (fieldC w) 0 0 0 := by
  apply eq_of_nibbles
  · rw [fieldC_and, show fieldC 0xF000 = BitVec.allOnes 4 from rfl, fieldC_wordNibbles, BitVec.and_allOnes]
  · rw [nibbleX_and, show nibbleX 0xF000 = 0#4 from rfl, nibbleX_wordNibbles, BitVec.and_zero]; rfl
  · rw [nibbleY_and, show nibbleY 0xF000 = 0#4 from rfl, nibbleY_wordNibbles, BitVec.and_zero]; rfl
  · rw [fieldN_and, show fieldN 0xF000 = 0#4 from rfl, fieldN_wordNibbles, BitVec.and_zero]; rfl

/-- The mask of a row that fixes the class and the low nibble. -/
theorem and_lowMask (w : Word) : w &&& 0xF00F = wordNibbles (fieldC w) 0 0 (fieldN w) := by
  apply eq_of_nibbles
  · rw [fieldC_and, show fieldC 0xF00F = BitVec.allOnes 4 from rfl, fieldC_wordNibbles, BitVec.and_allOnes]
  · rw [nibbleX_and, show nibbleX 0xF00F = 0#4 from rfl, nibbleX_wordNibbles, BitVec.and_zero]; rfl
  · rw [nibbleY_and, show nibbleY 0xF00F = 0#4 from rfl, nibbleY_wordNibbles, BitVec.and_zero]; rfl
  · rw [fieldN_and, show fieldN 0xF00F = BitVec.allOnes 4 from rfl, fieldN_wordNibbles, BitVec.and_allOnes]

/-- The mask of a row that fixes the class and the low byte. -/
theorem and_byteMask (w : Word) : w &&& 0xF0FF = wordNibbles (fieldC w) 0 (nibbleY w) (fieldN w) := by
  apply eq_of_nibbles
  · rw [fieldC_and, show fieldC 0xF0FF = BitVec.allOnes 4 from rfl, fieldC_wordNibbles, BitVec.and_allOnes]
  · rw [nibbleX_and, show nibbleX 0xF0FF = 0#4 from rfl, nibbleX_wordNibbles, BitVec.and_zero]; rfl
  · rw [nibbleY_and, show nibbleY 0xF0FF = BitVec.allOnes 4 from rfl, nibbleY_wordNibbles, BitVec.and_allOnes]
  · rw [fieldN_and, show fieldN 0xF0FF = BitVec.allOnes 4 from rfl, fieldN_wordNibbles, BitVec.and_allOnes]

theorem wordAddr_class (c : Nibble) (nnn : Addr12) : wordAddr c nnn &&& 0xF000 = wordNibbles c 0 0 0 := by
  rw [and_classMask, fieldC_wordAddr]

theorem wordByte_class (c x : Nibble) (kk : Byte) : wordByte c x kk &&& 0xF000 = wordNibbles c 0 0 0 := by
  rw [and_classMask, fieldC_wordByte]

theorem wordNibbles_class (c x y n : Nibble) : wordNibbles c x y n &&& 0xF000 = wordNibbles c 0 0 0 := by
  rw [and_classMask, fieldC_wordNibbles]

theorem wordNibbles_low (c x y n : Nibble) : wordNibbles c x y n &&& 0xF00F = wordNibbles c 0 0 n := by
  rw [and_lowMask, fieldC_wordNibbles, fieldN_wordNibbles]

theorem wordByte_byte (c x y n : Nibble) : wordByte c x (y ++ n) &&& 0xF0FF = wordNibbles c 0 y n := by
  rw [show wordByte c x (y ++ n) = wordNibbles c x y n from rfl, and_byteMask, fieldC_wordNibbles, nibbleY_wordNibbles,
    fieldN_wordNibbles]

/-- A byte is its two nibbles. -/
theorem fieldKk_nibbles (w : Word) : fieldKk w = nibbleY w ++ fieldN w := by
  apply BitVec.eq_of_toNat_eq
  rw [BitVec.toNat_append, ← Nat.shiftLeft_add_eq_or_of_lt (fieldN w).isLt]
  simp only [fieldKk, nibbleY, fieldN, BitVec.extractLsb'_toNat, Nat.shiftRight_eq_div_pow, Nat.shiftLeft_eq]
  omega

theorem class_of_mask {w : Word} {c : Nibble} (h : w &&& 0xF000 = wordNibbles c 0 0 0) : fieldC w = c := by
  rw [and_classMask] at h
  simpa using congrArg fieldC h

theorem low_of_mask {w : Word} {c n : Nibble} (h : w &&& 0xF00F = wordNibbles c 0 0 n) : fieldC w = c ∧ fieldN w = n := by
  rw [and_lowMask] at h
  exact ⟨by simpa using congrArg fieldC h, by simpa using congrArg fieldN h⟩

theorem byte_of_mask {w : Word} {c y n : Nibble} (h : w &&& 0xF0FF = wordNibbles c 0 y n) :
    fieldC w = c ∧ fieldKk w = y ++ n := by
  rw [and_byteMask] at h
  rw [fieldKk_nibbles]
  exact ⟨by simpa using congrArg fieldC h, by rw [show nibbleY w = y by simpa using congrArg nibbleY h,
    show fieldN w = n by simpa using congrArg fieldN h]⟩

end Sys2Proof

namespace Sys2Proof.Laws.EncodesRow

/-- The mask and the match value of an instruction's row in spec/opcode_table.json; UNKNOWN's row has none. -/
def row : Instr → Option (Word × Word)
  | .cls _ => some (0xF0FF, 0x00E0)
  | .ret _ => some (0xF0FF, 0x00EE)
  | .jp _ => some (0xF000, 0x1000)
  | .call _ => some (0xF000, 0x2000)
  | .seImm _ _ => some (0xF000, 0x3000)
  | .sneImm _ _ => some (0xF000, 0x4000)
  | .seReg _ _ _ => some (0xF000, 0x5000)
  | .ldImm _ _ => some (0xF000, 0x6000)
  | .addImm _ _ => some (0xF000, 0x7000)
  | .ldReg _ _ => some (0xF00F, 0x8000)
  | .orReg _ _ => some (0xF00F, 0x8001)
  | .andReg _ _ => some (0xF00F, 0x8002)
  | .xorReg _ _ => some (0xF00F, 0x8003)
  | .addReg _ _ => some (0xF00F, 0x8004)
  | .sub _ _ => some (0xF00F, 0x8005)
  | .shr _ _ => some (0xF00F, 0x8006)
  | .subn _ _ => some (0xF00F, 0x8007)
  | .shl _ _ => some (0xF00F, 0x800E)
  | .sneReg _ _ _ => some (0xF000, 0x9000)
  | .ldI _ => some (0xF000, 0xA000)
  | .jpV0 _ => some (0xF000, 0xB000)
  | .rnd _ _ => some (0xF000, 0xC000)
  | .drw _ _ _ => some (0xF000, 0xD000)
  | .skp _ => some (0xF0FF, 0xE09E)
  | .sknp _ => some (0xF0FF, 0xE0A1)
  | .ldVDt _ => some (0xF0FF, 0xF007)
  | .ldVK _ => some (0xF0FF, 0xF00A)
  | .ldDt _ => some (0xF0FF, 0xF015)
  | .ldSt _ => some (0xF0FF, 0xF018)
  | .addI _ => some (0xF0FF, 0xF01E)
  | .ldF _ => some (0xF0FF, 0xF029)
  | .ldB _ => some (0xF0FF, 0xF033)
  | .ldMemV _ => some (0xF0FF, 0xF055)
  | .ldVMem _ => some (0xF0FF, 0xF065)
  | .unknown _ => none

/-- The masks and match values of the rows that hold under both values of `P_BNNN` (30_encoding.md R80, all but row JP_V0),
one class after the other. -/
def rows : List (Word × Word) :=
  [(0xF0FF, 0x00E0), (0xF0FF, 0x00EE), (0xF000, 0x1000), (0xF000, 0x2000), (0xF000, 0x3000), (0xF000, 0x4000)] ++
  [(0xF000, 0x5000), (0xF000, 0x6000), (0xF000, 0x7000), (0xF00F, 0x8000), (0xF00F, 0x8001), (0xF00F, 0x8002)] ++
  [(0xF00F, 0x8003), (0xF00F, 0x8004), (0xF00F, 0x8005), (0xF00F, 0x8006), (0xF00F, 0x8007), (0xF00F, 0x800E)] ++
  [(0xF000, 0x9000), (0xF000, 0xA000), (0xF000, 0xC000), (0xF000, 0xD000), (0xF0FF, 0xE09E), (0xF0FF, 0xE0A1)] ++
  [(0xF0FF, 0xF007), (0xF0FF, 0xF00A), (0xF0FF, 0xF015), (0xF0FF, 0xF018), (0xF0FF, 0xF01E), (0xF0FF, 0xF029)] ++
  [(0xF0FF, 0xF033), (0xF0FF, 0xF055), (0xF0FF, 0xF065)]

/-- The word of an instruction lies in the instruction's row; the word of a well-formed unknown instruction lies in none. -/
def Statement (i : Instr) : Prop :=
  match row i with
  | some (mask, value) => encode i &&& mask = value
  | none => i.wellFormed = true → ∀ r ∈ rows, encode i &&& r.1 ≠ r.2

theorem cls (z : Nibble) : Statement (.cls z) := wordByte_byte 0x0 z 0xE 0x0

theorem ret (z : Nibble) : Statement (.ret z) := wordByte_byte 0x0 z 0xE 0xE

theorem jp (nnn : Addr12) : Statement (.jp nnn) := wordAddr_class _ nnn

theorem call (nnn : Addr12) : Statement (.call nnn) := wordAddr_class _ nnn

theorem seImm (x : Reg) (kk : Byte) : Statement (.seImm x kk) := wordByte_class _ _ kk

theorem sneImm (x : Reg) (kk : Byte) : Statement (.sneImm x kk) := wordByte_class _ _ kk

theorem seReg (x y : Reg) (z : Nibble) : Statement (.seReg x y z) := wordNibbles_class _ _ _ _

theorem ldImm (x : Reg) (kk : Byte) : Statement (.ldImm x kk) := wordByte_class _ _ kk

theorem addImm (x : Reg) (kk : Byte) : Statement (.addImm x kk) := wordByte_class _ _ kk

theorem ldReg (x y : Reg) : Statement (.ldReg x y) := wordNibbles_low _ _ _ _

theorem orReg (x y : Reg) : Statement (.orReg x y) := wordNibbles_low _ _ _ _

theorem andReg (x y : Reg) : Statement (.andReg x y) := wordNibbles_low _ _ _ _

theorem xorReg (x y : Reg) : Statement (.xorReg x y) := wordNibbles_low _ _ _ _

theorem addReg (x y : Reg) : Statement (.addReg x y) := wordNibbles_low _ _ _ _

theorem sub (x y : Reg) : Statement (.sub x y) := wordNibbles_low _ _ _ _

theorem shr (x y : Reg) : Statement (.shr x y) := wordNibbles_low _ _ _ _

theorem subn (x y : Reg) : Statement (.subn x y) := wordNibbles_low _ _ _ _

theorem shl (x y : Reg) : Statement (.shl x y) := wordNibbles_low _ _ _ _

theorem sneReg (x y : Reg) (z : Nibble) : Statement (.sneReg x y z) := wordNibbles_class _ _ _ _

theorem ldI (nnn : Addr12) : Statement (.ldI nnn) := wordAddr_class _ nnn

theorem jpV0 (nnn : Addr12) : Statement (.jpV0 nnn) := wordAddr_class _ nnn

theorem rnd (x : Reg) (kk : Byte) : Statement (.rnd x kk) := wordByte_class _ _ kk

theorem drw (x y : Reg) (n : Nibble) : Statement (.drw x y n) := wordNibbles_class _ _ _ _

theorem skp (x : Reg) : Statement (.skp x) := wordByte_byte 0xE (regNibble x) 0x9 0xE

theorem sknp (x : Reg) : Statement (.sknp x) := wordByte_byte 0xE (regNibble x) 0xA 0x1

theorem ldVDt (x : Reg) : Statement (.ldVDt x) := wordByte_byte 0xF (regNibble x) 0x0 0x7

theorem ldVK (x : Reg) : Statement (.ldVK x) := wordByte_byte 0xF (regNibble x) 0x0 0xA

theorem ldDt (x : Reg) : Statement (.ldDt x) := wordByte_byte 0xF (regNibble x) 0x1 0x5

theorem ldSt (x : Reg) : Statement (.ldSt x) := wordByte_byte 0xF (regNibble x) 0x1 0x8

theorem addI (x : Reg) : Statement (.addI x) := wordByte_byte 0xF (regNibble x) 0x1 0xE

theorem ldF (x : Reg) : Statement (.ldF x) := wordByte_byte 0xF (regNibble x) 0x2 0x9

theorem ldB (x : Reg) : Statement (.ldB x) := wordByte_byte 0xF (regNibble x) 0x3 0x3

theorem ldMemV (x : Reg) : Statement (.ldMemV x) := wordByte_byte 0xF (regNibble x) 0x5 0x5

theorem ldVMem (x : Reg) : Statement (.ldVMem x) := wordByte_byte 0xF (regNibble x) 0x6 0x5

theorem unknown (w : Word) : Statement (.unknown w) := by
  intro hw r hr he
  have hw : isUnknownWord Params.bnnn w = true := hw
  unfold isUnknownWord at hw
  have hclass : ∀ c : Nibble, w &&& 0xF000 = wordNibbles c 0 0 0 → c ∉ ([0x0, 0x8, 0xB, 0xE, 0xF] : List Nibble) → False := by
    intro c h hc
    rw [class_of_mask h] at hw
    simp only [List.mem_cons, List.not_mem_nil, or_false, not_or] at hc
    rw [if_neg hc.1, if_neg hc.2.1, if_neg hc.2.2.1, if_neg hc.2.2.2.1, if_neg hc.2.2.2.2] at hw
    cases hw
  have hlow : ∀ n : Nibble, w &&& 0xF00F = wordNibbles 0x8 0 0 n → n ∉ unknownLow8 → False := by
    intro n h hn
    obtain ⟨h1, h2⟩ := low_of_mask h
    rw [h1, h2] at hw
    simp at hw
    exact hn hw
  have hzero : ∀ y n : Nibble, w &&& 0xF0FF = wordNibbles 0x0 0 y n → y ++ n = 0xE0#8 ∨ y ++ n = 0xEE#8 → False := by
    intro y n h hb
    obtain ⟨h1, h2⟩ := byte_of_mask h
    rw [h1, h2] at hw
    rcases hb with hb | hb <;> simp [hb] at hw
  have hkey : ∀ y n : Nibble, w &&& 0xF0FF = wordNibbles 0xE 0 y n → y ++ n = 0x9E#8 ∨ y ++ n = 0xA1#8 → False := by
    intro y n h hb
    obtain ⟨h1, h2⟩ := byte_of_mask h
    rw [h1, h2] at hw
    rcases hb with hb | hb <;> simp [hb] at hw
  have hmisc : ∀ y n : Nibble, w &&& 0xF0FF = wordNibbles 0xF 0 y n → y ++ n ∈ knownLowF → False := by
    intro y n h hb
    obtain ⟨h1, h2⟩ := byte_of_mask h
    rw [h1, h2] at hw
    simp [hb] at hw
  simp only [rows, List.cons_append, List.nil_append, List.mem_cons, List.not_mem_nil, or_false] at hr
  rcases hr with
    rfl | rfl | rfl | rfl | rfl | rfl | rfl | rfl | rfl | rfl | rfl | rfl | rfl | rfl | rfl | rfl | rfl | rfl |
    rfl | rfl | rfl | rfl | rfl | rfl | rfl | rfl | rfl | rfl | rfl | rfl | rfl | rfl | rfl
  · exact hzero 0xE 0x0 he (by decide)
  · exact hzero 0xE 0xE he (by decide)
  · exact hclass 0x1 he (by decide)
  · exact hclass 0x2 he (by decide)
  · exact hclass 0x3 he (by decide)
  · exact hclass 0x4 he (by decide)
  · exact hclass 0x5 he (by decide)
  · exact hclass 0x6 he (by decide)
  · exact hclass 0x7 he (by decide)
  · exact hlow 0x0 he (by decide)
  · exact hlow 0x1 he (by decide)
  · exact hlow 0x2 he (by decide)
  · exact hlow 0x3 he (by decide)
  · exact hlow 0x4 he (by decide)
  · exact hlow 0x5 he (by decide)
  · exact hlow 0x6 he (by decide)
  · exact hlow 0x7 he (by decide)
  · exact hlow 0xE he (by decide)
  · exact hclass 0x9 he (by decide)
  · exact hclass 0xA he (by decide)
  · exact hclass 0xC he (by decide)
  · exact hclass 0xD he (by decide)
  · exact hkey 0x9 0xE he (by decide)
  · exact hkey 0xA 0x1 he (by decide)
  · exact hmisc 0x0 0x7 he (by decide)
  · exact hmisc 0x0 0xA he (by decide)
  · exact hmisc 0x1 0x5 he (by decide)
  · exact hmisc 0x1 0x8 he (by decide)
  · exact hmisc 0x1 0xE he (by decide)
  · exact hmisc 0x2 0x9 he (by decide)
  · exact hmisc 0x3 0x3 he (by decide)
  · exact hmisc 0x5 0x5 he (by decide)
  · exact hmisc 0x6 0x5 he (by decide)

end Sys2Proof.Laws.EncodesRow
end

