-- ==== Sys2Proof/Laws/Time.lean ====
section
/-! SUPPORT. The arithmetic of elapsed time and the order of the slots (40_execution_engine.md R121, R123, R125). -/

namespace Sys2Proof.Machine

theorem cyclePeriod_pos : 0 < Config.cyclePeriod := by
  unfold Config.cyclePeriod
  positivity

theorem State.timerPeriod_pos (s : State) : 0 < (s.policies.timerPeriod : Rat) := s.policies.timerPeriod.property

/-- The whole periods in a time, and the rest, which is less than a period (R123). -/
theorem splitTime_spec {period t : Rat} (hp : 0 < period) (ht : 0 ≤ t) :
    ((splitTime period t).1 : Rat) * period + (splitTime period t).2 = t ∧ 0 ≤ (splitTime period t).2 ∧
      (splitTime period t).2 < period := by
  have hq : 0 ≤ t / period := div_nonneg ht hp.le
  have hf : (((t / period).floor.toNat : Nat) : Rat) = ((⌊t / period⌋ : Int) : Rat) := by
    have h0 : 0 ≤ ⌊t / period⌋ := Int.floor_nonneg.2 hq
    have : (((t / period).floor.toNat : Nat) : Int) = ⌊t / period⌋ := Int.toNat_of_nonneg h0
    exact_mod_cast this
  simp only [splitTime, hf]
  have h1 := Int.floor_le (t / period)
  have h2 := Int.lt_floor_add_one (t / period)
  rw [le_div_iff₀ hp] at h1
  rw [div_lt_iff₀ hp] at h2
  refine ⟨by ring, by linarith, by linarith⟩

/-- The count of whole periods is the only one that fits. -/
theorem splitTime_count {period t : Rat} {n : Nat} (hp : 0 < period) (h1 : (n : Rat) * period ≤ t)
    (h2 : t < ((n : Rat) + 1) * period) : (splitTime period t).1 = n := by
  have ht : 0 ≤ t := le_trans (by positivity) h1
  obtain ⟨e, h3, h4⟩ := splitTime_spec hp ht
  have h5 : ((splitTime period t).1 : Rat) < n + 1 := by
    by_contra h
    nlinarith [not_lt.1 h]
  have h6 : (n : Rat) < (splitTime period t).1 + 1 := by
    by_contra h
    nlinarith [not_lt.1 h]
  have h5' : (splitTime period t).1 < n + 1 := by exact_mod_cast h5
  have h6' : n < (splitTime period t).1 + 1 := by exact_mod_cast h6
  omega

end Sys2Proof.Machine
end

