-- ==== Sys2Proof/Laws/Step.lean ====
section
/-! SUPPORT. What one step can do, once: the cases from which every rule about steps follows. -/

namespace Sys2Proof.Machine

/-! ### The moves, one equation each -/

/-- With no call in progress and none to come a step changes nothing. -/
theorem step_of_idle {s : State} (h : s.idle) : step s = .next s := by
  simp only [step, State.move, h.1, h.2]

/-- In an `advance` call a step takes the next slot. -/
theorem step_of_slot {s : State} {slot : Slot} {rest : List Slot} (h : s.slots = some (slot :: rest))
    (hf : s.isFaulted = false) : step s = (s.setSlots (some rest)).runSlot slot := by
  simp only [step, State.move, h, hf, Bool.false_eq_true, if_false]

/-- With no slot left, or in `Faulted`, a step ends the `advance` call. -/
theorem step_of_end {s : State} {l : List Slot} (h : s.slots = some l) (hl : l = [] ∨ s.isFaulted = true) :
    step s = .next s.endAdvance := by
  unfold step State.move
  cases l with
  | nil => simp only [h]
  | cons slot rest => simp only [h, hl.resolve_left (List.cons_ne_nil _ _), if_true]

/-- Between calls a step serves the host's next call. -/
theorem step_of_call {s : State} {c : HostCall} {rest : List HostCall} (h1 : s.slots = none) (h2 : s.host = c :: rest) :
    step s = (s.setHost rest).serve c := by
  simp only [step, State.move, h1, h2]

/-- A `Running` cycle is the meaning of the word fetched, after the pre-increment. -/
theorem cycle_of_running {s : State} (h : s.mode = .running) : s.cycle = exec (decodeWith s.policies.bnnn s.fetchWord) s.incPc := by
  simp only [State.cycle, h]

/-- `Running` is not `Faulted`. -/
theorem isFaulted_of_running {s : State} (h : s.mode = .running) : s.isFaulted = false := by
  simp [State.isFaulted, h]

/-- `a + b` steps are `a` steps and then `b` steps. -/
theorem run_add {s t : State} (a b : Nat) (h : Sys2Proof.core.run a s = .next t) :
    Sys2Proof.core.run (a + b) s = Sys2Proof.core.run b t := by
  induction a generalizing s with
  | zero => cases h; rw [Nat.zero_add]
  | succ a ih =>
    rw [Nat.add_right_comm]
    simp only [Host.Core.run] at h ⊢
    cases hs : Sys2Proof.core.step s with
    | next u => rw [hs] at h; exact ih h
    | fault f => rw [hs] at h; cases h
    | refused f => rw [hs] at h; cases h

/-- Any number of steps of an idle machine changes nothing. -/
theorem run_of_idle {s : State} (k : Nat) (h : s.idle) : Sys2Proof.core.run k s = .next s := by
  induction k with
  | zero => rfl
  | succ k ih =>
    simp only [Host.Core.run]
    rw [show Sys2Proof.core.step s = .next s from step_of_idle h]
    exact ih

/-! ### Fetch and the placed word -/

/-- What is fetched depends on `PC`, memory and the font alone (R102). -/
theorem fetchWord_congr {s t : State} (hp : t.pc = s.pc) (hm : t.mem = s.mem) (hq : t.policies = s.policies) :
    t.fetchWord = s.fetchWord := by
  unfold State.fetchWord
  rw [hp, State.readMem_congr hm hq, State.readMem_congr hm hq]

@[simp] theorem State.placeWord_pc (s : State) (w : Word) : (s.placeWord w).pc = s.pc := by simp [State.placeWord]

@[simp] theorem State.placeWord_policies (s : State) (w : Word) : (s.placeWord w).policies = s.policies := by simp [State.placeWord]

/-- A placed word is the word fetched: its two bytes go to different cells. -/
theorem fetchWord_placeWord (s : State) (w : Word) : (s.placeWord w).fetchWord = w := by
  have hm : (s.placeWord w).mem = ((s.writeMem s.pc.toNat (highByte w)).writeMem (s.pc.toNat + 1) (lowByte w)).mem := by
    simp [State.placeWord]
  have hq : (s.placeWord w).policies = ((s.writeMem s.pc.toNat (highByte w)).writeMem (s.pc.toNat + 1) (lowByte w)).policies := by simp
  have hne : ¬ cellOf (s.pc.toNat + 1) = cellOf s.pc.toNat := by unfold cellOf; omega
  unfold State.fetchWord
  rw [State.placeWord_pc, State.readMem_congr hm hq, State.readMem_congr hm hq, State.readMem_writeMem, State.readMem_writeMem,
    State.readMem_writeMem, if_neg hne, if_pos rfl, if_pos rfl, wordOfBytes_bytes]

/-! ### What a step can do -/

/-- `u` is `s` with a cycle, the first slot of the `advance` call in progress, taken off: what the cycle starts from. -/
def CycleStart (s u : State) : Prop :=
  ∃ rest, s.slots = some (.cycle :: rest) ∧ s.isFaulted = false ∧ u = s.setSlots (some rest)

/-- The cases of a step that has a next state. -/
theorem step_cases {s t : State} (h : step s = .next t) :
    (∃ i u, s.aboutToRun i ∧ CycleStart s u ∧ exec i u.incPc = .next t) ∨
    (s.mode ≠ .running ∧ CycleStart s t) ∨
    (∃ rest, s.slots = some (.tick :: rest) ∧ s.isFaulted = false ∧ t = (s.setSlots (some rest)).tick) ∨
    (∃ l, s.slots = some l ∧ (l = [] ∨ s.isFaulted = true) ∧ t = s.endAdvance) ∨
    (∃ c rest, s.slots = none ∧ s.host = c :: rest ∧ (s.setHost rest).serve c = .next t) ∨ (s.idle ∧ t = s) := by
  cases hsl : s.slots with
  | none =>
    cases hh : s.host with
    | nil =>
      rw [step_of_idle ⟨hsl, hh⟩] at h
      cases h
      exact .inr (.inr (.inr (.inr (.inr ⟨⟨hsl, hh⟩, rfl⟩))))
    | cons c rest =>
      rw [step_of_call hsl hh] at h
      exact .inr (.inr (.inr (.inr (.inl ⟨c, rest, rfl, rfl, h⟩))))
  | some l =>
    cases l with
    | nil =>
      rw [step_of_end hsl (.inl rfl)] at h
      cases h
      exact .inr (.inr (.inr (.inl ⟨[], rfl, .inl rfl, rfl⟩)))
    | cons slot rest =>
      cases hf : s.isFaulted with
      | true =>
        rw [step_of_end hsl (.inr hf)] at h
        cases h
        exact .inr (.inr (.inr (.inl ⟨_, rfl, .inr rfl, rfl⟩)))
      | false =>
        rw [step_of_slot hsl hf] at h
        cases slot with
        | tick => cases h; exact .inr (.inr (.inl ⟨rest, rfl, rfl, rfl⟩))
        | cycle =>
          have hu : CycleStart s (s.setSlots (some rest)) := ⟨rest, hsl, hf, rfl⟩
          change (s.setSlots (some rest)).cycle = .next t at h
          cases hmode : s.mode with
          | running =>
            rw [cycle_of_running (s := s.setSlots (some rest)) hmode] at h
            exact .inl ⟨_, _, ⟨⟨hmode, rfl⟩, rest, hsl⟩, hu, h⟩
          | awaitingKey r =>
            simp only [State.cycle, State.setSlots_mode, hmode] at h
            cases h
            exact .inr (.inl ⟨by simp, hu⟩)
          | faulted f => simp [State.isFaulted, hmode] at hf

/-- What the state a cycle starts from shares with the state before the step: all but the slots. -/
theorem CycleStart.eq {s u : State} (h : CycleStart s u) : u = { s with slots := u.slots } := by
  obtain ⟨rest, -, -, rfl⟩ := h
  rfl

/-- What serving a host call can do. -/
theorem serve_cases {s t : State} {c : HostCall} (h : s.serve c = .next t) :
    (∃ bytes, c = .loadProgram bytes ∧ s.mayLoad = true ∧ t = s.closeLoading.loadProgram bytes) ∨
    (∃ d order, c = .advance d order ∧ 0 ≤ d ∧ t = s.beginAdvance d order) ∨
    (∃ k, c.presses k ∧ t = s.keyDown k) ∨ (∃ k, c.releases k ∧ t = s.keyUp k) ∨ t = s ∨
    (∃ o, t = s.emit o) := by
  cases c with
  | loadProgram bytes =>
    cases hm : s.mayLoad <;> simp only [State.serve, hm, if_true, Bool.false_eq_true, if_false] at h
    · cases h
    · cases h; exact .inl ⟨bytes, rfl, rfl, rfl⟩
  | advance d order =>
    by_cases hd : d < 0 <;> simp only [State.serve, hd, if_true, if_false] at h
    · cases h
    · cases h; exact .inr (.inl ⟨d, order, rfl, not_lt.1 hd, rfl⟩)
  | keyDown k => cases h; exact .inr (.inr (.inl ⟨k, .inl rfl, rfl⟩))
  | keyUp k => cases h; exact .inr (.inr (.inr (.inl ⟨k, .inl rfl, rfl⟩)))
  | hostKeyDown symbol =>
    cases hk : Config.keymap symbol with
    | none => simp only [State.serve, hk] at h; cases h; exact .inr (.inr (.inr (.inr (.inl rfl))))
    | some k => simp only [State.serve, hk] at h; cases h; exact .inr (.inr (.inl ⟨k, .inr ⟨symbol, rfl, hk⟩, rfl⟩))
  | hostKeyUp symbol =>
    cases hk : Config.keymap symbol with
    | none => simp only [State.serve, hk] at h; cases h; exact .inr (.inr (.inr (.inr (.inl rfl))))
    | some k => simp only [State.serve, hk] at h; cases h; exact .inr (.inr (.inr (.inl ⟨k, .inr ⟨symbol, rfl, hk⟩, rfl⟩)))
  | readDisplay => cases h; exact .inr (.inr (.inr (.inr (.inr ⟨_, rfl⟩))))
  | readDebugSnapshot => cases h; exact .inr (.inr (.inr (.inr (.inr ⟨_, rfl⟩))))

/-- What a key press can do (R126). -/
theorem keyDown_cases (s : State) (k : Key) :
    (∃ r, s.mode = .awaitingKey r ∧
      s.keyDown k = ((s.setKey k true).setV r (BitVec.ofNat 8 k.val)).setMode .running) ∨
    ((∀ r, s.mode ≠ .awaitingKey r) ∧ s.keyDown k = s.setKey k true) := by
  cases h : s.mode with
  | awaitingKey r => exact .inl ⟨r, rfl, by simp [State.keyDown, h]⟩
  | running => exact .inr ⟨by simp, by simp [State.keyDown, h]⟩
  | faulted f => exact .inr ⟨by simp, by simp [State.keyDown, h]⟩

/-- What a load can do (R282). -/
theorem loadProgram_cases (s : State) (bytes : List Byte) :
    (bytes.length ≤ 3584 ∧ s.loadProgram bytes = (s.writeBytes 0x200 bytes).emit (.loadResult true)) ∨
    (3584 < bytes.length ∧ s.loadProgram bytes = s.emit (.loadResult false)) := by
  by_cases h : bytes.length > maxProgram
  · exact .inr ⟨h, if_pos h⟩
  · exact .inl ⟨Nat.not_lt.1 h, if_neg h⟩

/-- What the start of an `advance` can do (R123). -/
theorem beginAdvance_cases (s : State) (d : Rat) (order : List Slot) :
    (s.isFaulted = true ∧ s.beginAdvance d order = s.closeLoading.emit (.redrawFlag false)) ∨
    (s.isFaulted = false ∧ s.beginAdvance d order =
      (((s.closeLoading.setTime (splitTime Config.cyclePeriod (s.cycleAcc + d)).2
        (splitTime s.policies.timerPeriod (s.timerAcc + d)).2).setRedraw false).setSlots
        (some (interleave order (splitTime Config.cyclePeriod (s.cycleAcc + d)).1
          (splitTime s.policies.timerPeriod (s.timerAcc + d)).1)))) := by
  cases h : s.isFaulted
  · exact .inr ⟨rfl, by simp [State.beginAdvance, State.beginAdvanceWith, h]⟩
  · exact .inl ⟨rfl, by simp [State.beginAdvance, State.beginAdvanceWith, h]⟩

end Sys2Proof.Machine
end

