-- ==== Sys2Proof/Tests/Slice0.lean ====
section
/-! SUPPORT. Tests of the model on single steps, with results taken from spec/95_test_vectors.md (its vector is named at each
test), and for every obligation with hypotheses a witness that meets them. -/

namespace Sys2Proof.Machine.Tests

/-- Whether an outcome is a next state with the property `p`. -/
def holds (o : Host.Outcome State Fault Refusal) (p : State → Bool) : Bool :=
  match o with
  | .next t => p t
  | .fault _ => false
  | .refused _ => false

/-- The next state, where there is one (else the state after construction). -/
def nextOf (o : Host.Outcome State Fault Refusal) : State :=
  match o with
  | .next t => t
  | .fault _ => State.reset
  | .refused _ => State.reset

theorem eq_nextOf {o : Host.Outcome State Fault Refusal} (h : holds o (fun _ => true) = true) : o = .next (nextOf o) := by
  cases o
  · rfl
  · cases h
  · cases h

/-- One cycle of the word `w` placed at `PC`. -/
def runWord (w : Nat) (s : State) : Host.Outcome State Fault Refusal := step (s.withFetchWord 16 w)

/-- `s` with registers set. -/
def setRegs (s : State) (l : List (Reg × Byte)) : State := l.foldl (fun s e => s.setV e.1 e.2) s

/-- The state after construction with registers set. -/
def withRegs (l : List (Reg × Byte)) : State := setRegs State.reset l

/-- The state after construction with a value other than R8's default of every policy and of the timer period (1/50 second). -/
def otherPolicies : State := State.construct ⟨⟨1 / 50, by decide +kernel⟩, .modular, .advance, .allBits, .unrecognized, Params.font⟩

/-- `s` in an `advance` call with one cycle left. -/
def oneCycle (s : State) : State := s.setSlots (some [.cycle])

/-- The state after construction with `I` and cells set. -/
def withCells (i : Word) (l : List (Nat × Byte)) : State := (l.foldl (fun s e => s.writeMem e.1 e.2) State.reset).setI i

/-- The state after construction with one pixel lit. -/
def withPixel (x : Fin 64) (y : Fin 32) : State := State.reset.setDisp (State.reset.disp.set y (pixelBit x true))

/-- How many pixels of the first `n` rows are lit. -/
def litIn (d : Display) (n : Nat) : Nat :=
  ((List.finRange 64).map (fun x => ((List.finRange 32).filter (fun y => decide (y.val < n) && d.get x y)).length)).sum

/-! ### Well-formedness: an ill-formed term for each check -/

/-- 0x00E0 is CLS, so it is no unknown word (R78). -/
theorem test_unknown_of_a_known_word_is_refused : (Instr.unknown 0x00E0).wellFormed = false := by decide

/-- Under `unrecognized` there is no JP V0, nnn (R77). -/
theorem test_jpV0_is_refused_when_unrecognized : (Instr.jpV0 0x123).wellFormedWith .unrecognized = false := by decide

/-- A word of each class of unknown words is well-formed (R78). -/
theorem test_unknown_words_are_accepted : [0x0000, 0x0123, 0x8008, 0x800F, 0xE19F, 0xF1FF, 0xF0A1].all
    (fun w => (Instr.unknown w).wellFormed) = true := by decide

/-! ### Decoding: words written out from the encodings of 30_encoding.md R80, every row of the opcode map -/

theorem test_decode_cls : decode 0b0000_0000_1110_0000 = .cls 0x0 := by decide

/-- D-7: the ignored nibble. -/
theorem test_decode_cls_ignored_nibble : decode 0x03E0 = .cls 0x3 := by decide

theorem test_decode_ret : decode 0b0000_0000_1110_1110 = .ret 0x0 := by decide

theorem test_decode_jp : decode 0b0001_0010_0011_0100 = .jp 0x234 := by decide

theorem test_decode_call : decode 0b0010_0010_0000_1010 = .call 0x20A := by decide

theorem test_decode_seImm : decode 0b0011_0001_0100_0010 = .seImm 1 0x42 := by decide

theorem test_decode_sneImm : decode 0b0100_0001_0100_0010 = .sneImm 1 0x42 := by decide

/-- D-10. -/
theorem test_decode_seReg : decode 0b0101_0001_0010_1111 = .seReg 1 2 0xF := by decide

theorem test_decode_ldImm : decode 0b0110_0000_0000_1010 = .ldImm 0 0x0A := by decide

theorem test_decode_addImm : decode 0b0111_0000_0000_0101 = .addImm 0 0x05 := by decide

theorem test_decode_ldReg : decode 0b1000_0001_0011_0000 = .ldReg 1 3 := by decide

theorem test_decode_orReg : decode 0b1000_0001_0010_0001 = .orReg 1 2 := by decide

theorem test_decode_andReg : decode 0b1000_0001_0010_0010 = .andReg 1 2 := by decide

theorem test_decode_xorReg : decode 0b1000_0001_0010_0011 = .xorReg 1 2 := by decide

theorem test_decode_addReg : decode 0b1000_1111_0000_0100 = .addReg 15 0 := by decide

theorem test_decode_sub : decode 0b1000_0010_0001_0101 = .sub 2 1 := by decide

theorem test_decode_shr : decode 0b1000_0001_0010_0110 = .shr 1 2 := by decide

theorem test_decode_subn : decode 0b1000_0001_0010_0111 = .subn 1 2 := by decide

theorem test_decode_shl : decode 0b1000_0011_0000_1110 = .shl 3 0 := by decide

/-- D-11. -/
theorem test_decode_sneReg : decode 0b1001_1010_1011_0111 = .sneReg 10 11 0x7 := by decide

theorem test_decode_ldI : decode 0b1010_0011_0000_0000 = .ldI 0x300 := by decide

/-- D-14, both values of `P_BNNN`. -/
theorem test_decode_jpV0 : decodeWith .jumpV0 0b1011_0001_0010_0011 = .jpV0 0x123 ∧
    decodeWith .unrecognized 0b1011_0001_0010_0011 = .unknown 0xB123 := by decide

theorem test_decode_rnd : decode 0b1100_0011_0000_1111 = .rnd 3 0x0F := by decide

theorem test_decode_drw : decode 0b1101_0000_0001_0101 = .drw 0 1 0x5 := by decide

theorem test_decode_skp : decode 0b1110_0000_1001_1110 = .skp 0 := by decide

/-- D-15. -/
theorem test_decode_sknp : decode 0b1110_0101_1010_0001 = .sknp 5 := by decide

theorem test_decode_ldVDt : decode 0b1111_0011_0000_0111 = .ldVDt 3 := by decide

theorem test_decode_ldVK : decode 0b1111_0010_0000_1010 = .ldVK 2 := by decide

theorem test_decode_ldDt : decode 0b1111_0000_0001_0101 = .ldDt 0 := by decide

theorem test_decode_ldSt : decode 0b1111_0001_0001_1000 = .ldSt 1 := by decide

theorem test_decode_addI : decode 0b1111_0001_0001_1110 = .addI 1 := by decide

theorem test_decode_ldF : decode 0b1111_0100_0010_1001 = .ldF 4 := by decide

theorem test_decode_ldB : decode 0b1111_0000_0011_0011 = .ldB 0 := by decide

/-- D-16. -/
theorem test_decode_ldMemV : decode 0b1111_1000_0101_0101 = .ldMemV 8 := by decide

theorem test_decode_ldVMem : decode 0b1111_0010_0110_0101 = .ldVMem 2 := by decide

/-- D-9, D-12, D-13. -/
theorem test_decode_unknown : [0x0123, 0x8008, 0x8009, 0x800A, 0x800B, 0x800C, 0x800D, 0x800F, 0xE19F, 0xF1FF, 0xF0A1].all
    (fun w => decide (decode w = .unknown w)) = true := by decide

/-- The host's numbering: bit 0 is the least significant bit of the word. -/
theorem test_decodeTableWord : decodeTableWord 16 0x600A = some (.ldImm 0 0x0A) := by decide

/-! ### Fetch (40_execution_engine.md R102, R103) -/

/-- D-2: an odd `PC` fetches normally. -/
theorem test_fetch_odd : holds (step (oneCycle ((withCells 0 [(0x201, 0x60), (0x202, 0x11)]).setPc 0x201)))
    (fun t => decide (t.getV 0 = 0x11 ∧ t.pc = 0x203)) = true := by decide

/-- D-3: at 0xFFF the low byte comes from cell 0x000. -/
theorem test_fetch_wraps : holds (step (oneCycle ((withCells 0 [(0xFFF, 0x61)]).setPc 0x0FFF)))
    (fun t => decide (t.getV 1 = 0xF0 ∧ t.pc = 0x1001)) = true := by decide

/-! ### One instruction each -/

/-- G-1. -/
theorem test_cls : holds (runWord 0x00E0 (withPixel 5 7)) (fun t => decide (t.disp = Display.blank ∧ t.redraw = true)) = true := by
  decide +kernel

/-- F-6: last pushed, first popped. -/
theorem test_ret : holds (runWord 0x00EE ((State.reset.setPc 0x30A).setStack [0x206, 0x402]))
    (fun t => decide (t.pc = 0x402 ∧ t.stack = [0x206])) = true := by decide

/-- F-7. -/
theorem test_ret_underflow : holds (runWord 0x00EE (State.reset.setPc 0x30A))
    (fun t => decide (t.mode = .faulted ⟨.stackUnderflow, 0x30A, 0x00EE⟩ ∧ t.pc = 0x30C ∧ t.stack = [])) = true := by decide

/-- F-2: an odd target is accepted. -/
theorem test_jp : holds (runWord 0x1201 State.reset) (fun t => decide (t.pc = 0x201)) = true := by decide

/-- F-4. -/
theorem test_call : holds (runWord 0x220A (State.reset.setPc 0x204)) (fun t => decide (t.stack = [0x206] ∧ t.pc = 0x20A)) = true := by
  decide

/-- F-8. -/
theorem test_call_overflow : holds (runWord 0x2300 (State.reset.setStack (List.replicate 16 0x400)))
    (fun t => decide (t.mode = .faulted ⟨.stackOverflow, 0x200, 0x2300⟩ ∧ t.pc = 0x202 ∧ t.stack = List.replicate 16 0x400)) =
      true := by
  decide

/-- F-10, F-11. -/
theorem test_seImm : holds (runWord 0x3142 (withRegs [(1, 0x42)])) (fun t => decide (t.pc = 0x204)) = true ∧
    holds (runWord 0x3142 (withRegs [(1, 0x41)])) (fun t => decide (t.pc = 0x202)) = true := by decide

/-- F-18: a taken skip wraps at 0x10000. -/
theorem test_seImm_wraps : holds (runWord 0x3000 (State.reset.setPc 0xFFFE)) (fun t => decide (t.pc = 0x0002)) = true := by decide

/-- F-12, F-13. -/
theorem test_sneImm : holds (runWord 0x4142 (withRegs [(1, 0x42)])) (fun t => decide (t.pc = 0x202)) = true ∧
    holds (runWord 0x4142 (withRegs [(1, 0x41)])) (fun t => decide (t.pc = 0x204)) = true := by decide

/-- F-14, F-15. -/
theorem test_seReg : holds (runWord 0x5120 (withRegs [(1, 0x33), (2, 0x33)])) (fun t => decide (t.pc = 0x204)) = true ∧
    holds (runWord 0x5120 (withRegs [(1, 0x33), (2, 0x34)])) (fun t => decide (t.pc = 0x202)) = true := by decide

/-- F-16, D-4. -/
theorem test_sneReg : holds (runWord 0x9120 (withRegs [(1, 0x33), (2, 0x34)])) (fun t => decide (t.pc = 0x204)) = true ∧
    holds (runWord 0x9090 State.reset) (fun t => decide (t.pc = 0x202)) = true := by decide

/-- A-1. -/
theorem test_ldImm : holds (runWord 0x6F12 State.reset) (fun t => decide (t.getV VF = 0x12 ∧ t.pc = 0x202)) = true := by decide

/-- A-2: no carry. -/
theorem test_addImm : holds (runWord 0x7001 (withRegs [(0, 0xFF), (15, 0x05)]))
    (fun t => decide (t.getV 0 = 0x00 ∧ t.getV VF = 0x05)) = true := by decide

/-- A-4. -/
theorem test_ldReg : holds (runWord 0x8130 (withRegs [(3, 0x44), (15, 0x07)]))
    (fun t => decide (t.getV 1 = 0x44 ∧ t.getV VF = 0x07)) = true := by decide

/-- A-5: VF is not reset. -/
theorem test_orReg : holds (runWord 0x8121 (withRegs [(1, 0x0C), (2, 0x0A), (15, 0x07)]))
    (fun t => decide (t.getV 1 = 0x0E ∧ t.getV VF = 0x07)) = true := by decide

/-- A-6. -/
theorem test_andReg : holds (runWord 0x8122 (withRegs [(1, 0x0C), (2, 0x0A), (15, 0x07)]))
    (fun t => decide (t.getV 1 = 0x08 ∧ t.getV VF = 0x07)) = true := by decide

/-- A-7. -/
theorem test_xorReg : holds (runWord 0x8123 (withRegs [(1, 0x0C), (2, 0x0A), (15, 0x07)]))
    (fun t => decide (t.getV 1 = 0x06 ∧ t.getV VF = 0x07)) = true := by decide

/-- A-9, A-10: sums 256 and 255. -/
theorem test_addReg : holds (runWord 0x8014 (withRegs [(0, 0xFF), (1, 0x01)])) (fun t => decide (t.getV 0 = 0x00 ∧ t.getV VF = 1)) = true ∧
    holds (runWord 0x8014 (withRegs [(0, 0xFE), (1, 0x01)])) (fun t => decide (t.getV 0 = 0xFF ∧ t.getV VF = 0)) = true := by decide

/-- A-12, A-13: VF as the destination ends as the carry. -/
theorem test_addReg_into_VF : holds (runWord 0x8F04 (withRegs [(15, 0x10), (0, 0x20)])) (fun t => decide (t.getV VF = 0)) = true ∧
    holds (runWord 0x8F04 (withRegs [(15, 0xF0), (0, 0x20)])) (fun t => decide (t.getV VF = 1)) = true := by decide

/-- A-16, A-17 (`observed`). -/
theorem test_sub : holds (runWord 0x8015 (withRegs [(0, 0x33), (1, 0x33)])) (fun t => decide (t.getV 0 = 0x00 ∧ t.getV VF = 1)) = true ∧
    holds (runWord 0x8015 (withRegs [(0, 0x05), (1, 0x10)])) (fun t => decide (t.getV 0 = 0xF4 ∧ t.getV VF = 0)) = true := by decide

/-- A-17, A-19 (`modular`): the machine's own policy counts. -/
theorem test_sub_modular : holds (runWord 0x8015 (setRegs otherPolicies [(0, 0x05), (1, 0x10)]))
      (fun t => decide (t.getV 0 = 0xF5 ∧ t.getV VF = 0)) = true ∧
    holds (runWord 0x8015 (setRegs otherPolicies [(0, 0x00), (1, 0xFF)])) (fun t => decide (t.getV 0 = 0x01 ∧ t.getV VF = 0)) = true := by
  decide

/-- A-23, A-25 (`observed`). -/
theorem test_subn : holds (runWord 0x8017 (withRegs [(0, 0x05), (1, 0x10)])) (fun t => decide (t.getV 0 = 0x0B ∧ t.getV VF = 1)) = true ∧
    holds (runWord 0x8127 (withRegs [(1, 0x05), (2, 0x03)])) (fun t => decide (t.getV 1 = 0xFD ∧ t.getV VF = 0)) = true := by decide

/-- A-29: `V[2]` is ignored. A-30: VF as the operand. -/
theorem test_shr : holds (runWord 0x8126 (withRegs [(1, 0x03), (2, 0xF0)])) (fun t => decide (t.getV 1 = 0x01 ∧ t.getV VF = 1)) = true ∧
    holds (runWord 0x8F06 (withRegs [(15, 0x02)])) (fun t => decide (t.getV VF = 0)) = true := by decide

/-- A-32, A-33. -/
theorem test_shl : holds (runWord 0x830E (withRegs [(3, 0x81)])) (fun t => decide (t.getV 3 = 0x02 ∧ t.getV VF = 1)) = true ∧
    holds (runWord 0x830E (withRegs [(3, 0x40)])) (fun t => decide (t.getV 3 = 0x80 ∧ t.getV VF = 0)) = true := by decide

/-- R176: `kk = 0` always gives 0, whatever byte is drawn; the next draw is a fresh one. -/
theorem test_rnd (s : State) : ∃ t, exec (.rnd 3 0x00) s = .next t ∧ t.getV 3 = 0 ∧ t.draws = s.draws + 1 :=
  ⟨_, rfl, by
    show (s.setV 3 (s.randomByte &&& 0)).getV 3 = 0
    rw [State.getV_setV_self]; exact BitVec.and_zero, rfl⟩

/-- R190. -/
theorem test_ldI : holds (runWord 0xA300 (State.reset.setI 0xF123)) (fun t => decide (t.i = 0x300)) = true := by decide

/-- R191: past 12 bits uncorrected, at 0x10000 wrapped, VF unchanged. -/
theorem test_addI : holds (runWord 0xF11E ((withRegs [(1, 0x01), (15, 0x05)]).setI 0x0FFF))
      (fun t => decide (t.i = 0x1000 ∧ t.getV VF = 0x05)) = true ∧
    holds (runWord 0xF11E ((withRegs [(1, 0x02)]).setI 0xFFFF)) (fun t => decide (t.i = 0x0001)) = true := by decide

/-- R192: the high nibble of `V[x]` is ignored. -/
theorem test_ldF : holds (runWord 0xF429 (withRegs [(4, 0x1A)])) (fun t => decide (t.i = 0x032)) = true := by decide

/-- M-12: the digits wrap from cell 0xFFF to cell 0x000. -/
theorem test_ldB : holds (runWord 0xF033 ((withRegs [(0, 0x7B)]).setI 0xFFE))
    (fun t => decide (t.readMem 0xFFE = 1 ∧ t.readMem 0xFFF = 2 ∧ t.readMem 0x000 = 3 ∧ t.i = 0xFFE)) = true := by decide +kernel

/-- M-13 (`unchanged`). -/
theorem test_ldMemV : holds (runWord 0xF255 ((withRegs [(0, 0x01), (1, 0x02), (2, 0x03), (3, 0x04)]).setI 0x300))
    (fun t => decide (t.readMem 0x300 = 1 ∧ t.readMem 0x301 = 2 ∧ t.readMem 0x302 = 3 ∧ t.readMem 0x303 = 0 ∧ t.i = 0x300)) = true := by
  decide +kernel

/-- M-18 (`unchanged`): the load wraps into glyph 0. -/
theorem test_ldVMem : holds (runWord 0xF265 ((withCells 0xFFE [(0xFFE, 0x11), (0xFFF, 0x22)]).setV 3 0x55))
    (fun t => decide (t.getV 0 = 0x11 ∧ t.getV 1 = 0x22 ∧ t.getV 2 = 0xF0 ∧ t.getV 3 = 0x55 ∧ t.i = 0xFFE)) = true := by decide +kernel

/-- M-13 (`advance`). -/
theorem test_ldMemV_advance : holds (runWord 0xF255 (otherPolicies.setI 0x300)) (fun t => decide (t.i = 0x303)) = true := by
  decide +kernel

/-- M-18 (`advance`). -/
theorem test_ldVMem_advance : holds (runWord 0xF265 (otherPolicies.setI 0xFFE)) (fun t => decide (t.i = 0x1001)) = true := by
  decide +kernel

/-- G-3: glyph 0 at the origin, 14 pixels lit. G-4: vertical wrap. S8: horizontal wrap. G-10: VF as a coordinate is read after its
reset. -/
theorem test_drw : holds (runWord 0xD015 State.reset)
      (fun t => t.disp.get 0 0 && t.disp.get 3 4 && !t.disp.get 1 1 &&
        decide (litIn t.disp 5 = 14 ∧ litIn t.disp 32 = 14 ∧ t.getV VF = 0)) = true ∧
    holds (runWord 0xD012 ((withCells 0x300 [(0x300, 0x80), (0x301, 0x80)]).setV 1 31))
      (fun t => t.disp.get 0 31 && t.disp.get 0 0 && decide (litIn t.disp 32 = 2)) = true ∧
    holds (runWord 0xD011 ((withCells 0x300 [(0x300, 0xFF)]).setV 0 60))
      (fun t => t.disp.get 60 0 && t.disp.get 63 0 && t.disp.get 3 0 && decide (litIn t.disp 32 = 8 ∧ t.getV VF = 0)) = true ∧
    holds (runWord 0xDF11 ((withCells 0x300 [(0x300, 0x80)]).setV 15 0x05))
      (fun t => t.disp.get 0 0 && decide (litIn t.disp 32 = 1 ∧ t.getV VF = 0)) = true := by decide +kernel

/-- `s` with the sprite byte 0x80 at `I` and one pixel of row 0 lit. -/
def overPixel (s : State) (x : Fin 64) : State :=
  ((s.setDisp (Display.blank.set 0 (pixelBit x true))).writeMem 0x300 0x80).setI 0x300

/-- G-6, G-7, G-8: the pixel under the 1 bit, one under a 0 bit and one outside the sprite, under both values of `P_COLLISION`. -/
theorem test_drw_collision : holds (runWord 0xD011 (overPixel State.reset 0)) (fun t => !t.disp.get 0 0 && decide (t.getV VF = 1)) = true ∧
    holds (runWord 0xD011 (overPixel State.reset 1)) (fun t => t.disp.get 1 0 && decide (t.getV VF = 0)) = true ∧
    holds (runWord 0xD011 (overPixel otherPolicies 1)) (fun t => t.disp.get 0 0 && t.disp.get 1 0 && decide (t.getV VF = 1)) = true ∧
    holds (runWord 0xD011 (overPixel otherPolicies 8)) (fun t => decide (t.getV VF = 0)) = true := by decide +kernel

/-- K-1, K-3. -/
theorem test_skp : holds (runWord 0xE09E ((withRegs [(0, 5)]).setKey 5 true)) (fun t => decide (t.pc = 0x204)) = true ∧
    holds (runWord 0xE09E ((withRegs [(0, 0x15)]).setKey 5 true)) (fun t => decide (t.pc = 0x202)) = true := by decide

/-- K-5, K-6. -/
theorem test_sknp : holds (runWord 0xE0A1 ((withRegs [(0, 5)]).setKey 5 true)) (fun t => decide (t.pc = 0x202)) = true ∧
    holds (runWord 0xE0A1 ((withRegs [(0, 0x15)]).setKey 5 true)) (fun t => decide (t.pc = 0x204)) = true := by decide

/-- K-7. -/
theorem test_ldVDt : holds (runWord 0xF307 (State.reset.setDt 0x3C)) (fun t => decide (t.getV 3 = 0x3C ∧ t.dt = 0x3C)) = true := by decide

/-- K-8. -/
theorem test_ldDt : holds (runWord 0xF015 (withRegs [(0, 0x07)])) (fun t => decide (t.dt = 0x07 ∧ t.st = 0)) = true := by decide

/-- K-9. -/
theorem test_ldSt : holds (runWord 0xF118 (withRegs [(1, 0x10)])) (fun t => decide (t.st = 0x10 ∧ t.dt = 0)) = true := by decide

/-- K-10, K-11. -/
theorem test_ldVK : holds (runWord 0xF20A State.reset) (fun t => decide (t.mode = .awaitingKey 2 ∧ t.pc = 0x202)) = true ∧
    holds (step ((State.reset.setMode (.awaitingKey 2)).setHost [.keyDown 0xB]))
      (fun t => decide (t.getV 2 = 0x0B ∧ t.key[0xB] = true ∧ t.mode = .running)) = true := by decide

/-- D-14 (`unrecognized`): a `Bnnn` word is reported and skipped. -/
theorem test_bnnn_unrecognized : holds (runWord 0xB123 otherPolicies)
    (fun t => decide (t.pc = 0x202 ∧ t.outputs = [.unknownOpcode 0x200 0xB123])) = true := by decide

/-- D-5: an unknown word at 0xFFFE. -/
theorem test_unknown : holds (runWord 0x0000 (State.reset.setPc 0xFFFE))
    (fun t => decide (t.pc = 0x0000 ∧ t.outputs = [.unknownOpcode 0xFFFE 0x0000])) = true := by decide

/-! ### Time and the host (40_execution_engine.md, 70_reset_and_hazards.md) -/

/-- T-3: `Pc = Pt/10`; `advance(Pt)` is 10 cycles and then 1 tick. -/
theorem test_advance_slots : (State.reset.beginAdvanceWith (1 / 600) (1 / 60) (1 / 60) []).slots =
    some (List.replicate 10 .cycle ++ [.tick]) := by decide +kernel

/-- T-2: half a period is carried. -/
theorem test_advance_carries : (State.reset.beginAdvanceWith (1 / 600) (1 / 60) (1 / 1200) []).cycleAcc = 1 / 1200 ∧
    ((State.reset.setTime (1 / 1200) 0).beginAdvanceWith (1 / 600) (1 / 60) (1 / 1200) []).slots = some [.cycle] ∧
    ((State.reset.setTime (1 / 1200) 0).beginAdvanceWith (1 / 600) (1 / 60) (1 / 1200) []).cycleAcc = 0 := by decide +kernel

/-- T-5, T-3, R8: half of the machine's own timer period is carried and a whole one is not, with a period of 1/50 second and with the
default. -/
theorem test_advance_timerPeriod :
    holds (step (otherPolicies.setHost [.advance (1 / 100) []])) (fun t => decide (t.timerAcc = 1 / 100)) = true ∧
    holds (step (otherPolicies.setHost [.advance (1 / 50) []])) (fun t => decide (t.timerAcc = 0)) = true ∧
    holds (step (State.reset.setHost [.advance (1 / 60) []])) (fun t => decide (t.timerAcc = 0)) = true := by decide +kernel

/-- T-7: both orders are admitted. -/
theorem test_interleave : interleave [] 1 1 = [.cycle, .tick] ∧ interleave [.tick] 1 1 = [.tick, .cycle] := by decide

/-- T-4: a timer at 0 stays at 0. -/
theorem test_tick : holds (step (((State.reset.setDt 0).setSt 2).setSlots (some [.tick]))) (fun t => decide (t.dt = 0 ∧ t.st = 1)) = true := by
  decide

/-- T-10: after a fault `advance` returns `false`. -/
theorem test_advance_faulted : holds (step ((State.reset.raiseFault .stackUnderflow 0x00EE).setHost [.advance 1 []]))
    (fun t => decide (t.outputs = [.redrawFlag false] ∧ t.isFaulted = true)) = true := by decide +kernel

/-- K-14: a release does not end a wait. K-16: a press in `Running` sets the key only. -/
theorem test_keys : holds (step (((State.reset.setMode (.awaitingKey 0)).setKey 3 true).setHost [.keyUp 3]))
      (fun t => decide (t.key[3] = false ∧ t.mode = .awaitingKey 0)) = true ∧
    holds (step ((withRegs [(0, 0x44)]).setHost [.keyDown 6])) (fun t => decide (t.key[6] = true ∧ t.getV 0 = 0x44)) = true := by decide

/-- R-2: `load_program`. -/
theorem test_load : holds (step (State.reset.setHost [.loadProgram [0x60, 0x0A]]))
    (fun t => decide (t.readMem 0x200 = 0x60 ∧ t.readMem 0x201 = 0x0A ∧ t.outputs = [.loadResult true])) = true := by decide +kernel

/-- R283: a second `load_program` has no move. -/
theorem test_second_load : step ((State.reset.setHost [.loadProgram []]).closeLoading) = .refused .loadOutOfTurn := by rfl

/-- R100: with no call at hand the core does nothing. R284: an `advance` before a load begins at the machine as constructed. -/
theorem test_idle : step State.reset = .next State.reset ∧
    step (oneCycle State.reset) = exec (.unknown 0x0000) { State.reset with pc := 0x202, slots := some [] } := by
  constructor <;> rfl

/-- R-1: a glyph byte (`P_FONT`), and zero above the glyphs. -/
theorem test_reset_memory : State.reset.readMem 0x04F = 0x80 ∧ State.reset.readMem 0x050 = 0 ∧ State.reset.readMem 0xFFF = 0 := by
  decide +kernel

/-- R8, R42: another font is what the glyph cells of its machine hold. -/
theorem test_font : (State.construct { Params.defaults with font := Vector.replicate 80 0xAA }).readMem 0x04F = 0xAA ∧
    (State.construct { Params.defaults with font := Vector.replicate 80 0xAA }).readMem 0x050 = 0 := by decide +kernel

/-! ### Witnesses: for every obligation with hypotheses, operands and a state that meet them together -/

/-- Two words of well-formed instructions, one of them under each value of `P_BNNN`. -/
theorem test_meets_DecodeOfEncodeIsTheInstruction : (Instr.jpV0 0xFFF).wellFormedWith .jumpV0 = true ∧
    (Instr.unknown 0xB000).wellFormedWith .unrecognized = true := by decide

theorem test_meets_CallPushesTheReturnAddress : (State.reset.setStack (List.replicate 15 0x202)).stack.length < 16 := by decide

theorem test_meets_ReturnPopsIntoPc : (State.reset.setStack [0x206]).stack = [] ++ [0x206] ∧
    (State.reset.setStack (List.replicate 16 0x206)).stack = List.replicate 15 0x206 ++ [0x206] := by decide

theorem test_meets_StackMisuseFaults : (State.reset.setStack (List.replicate 16 0x202)).stack.length = 16 ∧
    State.reset.stack = [] := by decide

/-- S6: CALL 0x300 at 0x200 and RET at 0x300, in an `advance` call with two cycles left. -/
def callReturn : State := (withCells 0 [(0x200, 0x23), (0x201, 0x00), (0x300, 0x00), (0x301, 0xEE)]).setSlots (some [.cycle, .cycle])

theorem test_meets_CallThenReturnComesBack : ∃ t, callReturn.slots = some (.cycle :: .cycle :: []) ∧
    callReturn.fetches (.call 0x300) ∧ callReturn.stack.length < 16 ∧ step callReturn = .next t ∧ t.fetches (.ret 0x0) :=
  ⟨_, rfl, ⟨by decide, by decide⟩, by decide, eq_nextOf (by decide), by decide, by decide⟩

/-- A borrow into VF, and VF loaded from memory with `x = 0xF`. -/
theorem test_meets_OnlyFlagInstructionsWriteVF : (∃ t, exec (.sub 0 1) State.reset = .next t ∧ t.getV VF ≠ State.reset.getV VF) ∧
    ∃ t, exec (.ldVMem 15) State.reset = .next t ∧ t.getV VF ≠ State.reset.getV VF :=
  ⟨⟨_, rfl, by decide⟩, ⟨_, rfl, by decide +kernel⟩⟩

theorem test_meets_SubtractPoliciesDifferByOne : (0x33 : Byte).toNat ≥ (0x33 : Byte).toNat ∧ (0x00 : Byte).toNat < (0xFF : Byte).toNat := by
  decide

theorem test_meets_DrawingTwiceRestoresTheDisplay : ∃ t u, exec (.drw 0 1 5) State.reset = .next t ∧ exec (.drw 0 1 5) t = .next u :=
  ⟨_, _, rfl, rfl⟩

/-- Glyph 0 at (60, 31): (63, 31) lies under a 1 bit and is unlit, (0, 31) lies under a 0 bit. And an empty sprite, under both values
of `P_COLLISION`. -/
theorem test_meets_SecondDrawCollidesWithTheFirst :
    (∃ t u, exec (.drw 0 1 5) (withRegs [(0, 60), (1, 31)]) = .next t ∧ exec (.drw 0 1 5) t = .next u) ∧
    spriteBitOver (withRegs [(0, 60), (1, 31)]) 0 1 5 63 31 = some true ∧ (withRegs [(0, 60), (1, 31)]).disp.get 63 31 = false ∧
    spriteBitOver (withRegs [(0, 60), (1, 31)]) 0 1 5 0 31 = some false ∧
    (∀ row < (1 : Nibble).toNat, (State.reset.setI 0x300).readMem (0x300 + row) = 0) ∧ State.reset.policies.collision = .litBits ∧
    (∀ row < (1 : Nibble).toNat, (otherPolicies.setI 0x300).readMem (0x300 + row) = 0) ∧ otherPolicies.policies.collision = .allBits :=
  ⟨⟨_, _, rfl, rfl⟩, by decide +kernel, by decide +kernel, by decide +kernel, by decide +kernel, by decide, by decide +kernel, by decide⟩

theorem test_meets_SecondDrawOfANonzeroSpriteSetsVF : (∃ row < (1 : Nibble).toNat, State.reset.readMem (State.reset.i.toNat + row) ≠ 0) ∧
    ∃ t u, exec (.drw 0 1 1) State.reset = .next t ∧ exec (.drw 0 1 1) t = .next u :=
  ⟨⟨0, by decide, by decide⟩, _, _, rfl, rfl⟩

/-- Key 15 held and named, and 16, which names no key. -/
theorem test_meets_KeySkipsTestTheNamedKey :
    (true = true ↔ ∃ k : Key, k.val = (((withRegs [(0, 15)]).setKey 15 true).getV 0).toNat ∧
      ((withRegs [(0, 15)]).setKey 15 true).key[k] = true) ∧
    (false = true ↔ ∃ k : Key, k.val = (((withRegs [(0, 16)]).setKey 0 true).getV 0).toNat ∧
      ((withRegs [(0, 16)]).setKey 0 true).key[k] = true) := by decide

/-- Both clauses: a wait for VF, and a machine that runs. -/
theorem test_meets_KeyDownResolvesTheWait : ((State.reset.setMode (.awaitingKey 15)).setHost [.keyDown 0]).slots = none ∧
    ((State.reset.setMode (.awaitingKey 15)).setHost [.keyDown 0]).host = .keyDown 0 :: [] ∧ (HostCall.keyDown 0).presses 0 ∧
    ((State.reset.setMode (.awaitingKey 15)).setHost [.keyDown 0]).mode = .awaitingKey 15 ∧
    ∀ r, (State.reset.setHost [.keyDown 0]).mode ≠ .awaitingKey r := ⟨rfl, rfl, .inl rfl, rfl, by decide⟩

/-- No layout table holds every host key symbol. -/
theorem exists_unmapped_symbol : ∃ symbol, Config.keymap symbol = none := by
  have h : ∀ l : List (Nat × Key), ∃ n : Nat, ∀ e ∈ l, e.1 < n := by
    intro l
    induction l with
    | nil => exact ⟨0, by simp⟩
    | cons e l ih =>
      obtain ⟨n, hn⟩ := ih
      refine ⟨max n (e.1 + 1), fun f hf => ?_⟩
      rcases List.mem_cons.1 hf with rfl | hf
      · omega
      · have := hn f hf
        omega
  obtain ⟨n, hn⟩ := h Config.keymapTable
  refine ⟨n, ?_⟩
  have : Config.keymapTable.find? (fun e => e.1 == n) = none := by
    rw [List.find?_eq_none]
    intro e he
    have := hn e he
    simp only [beq_iff_eq]
    omega
  rw [Config.keymap, this]
  rfl

/-- Both clauses: a release of key 15, and a host key without an entry. -/
theorem test_meets_KeyUpOnlyReleasesTheKey : (State.reset.setHost [.keyUp 15]).slots = none ∧
    (State.reset.setHost [.keyUp 15]).host = .keyUp 15 :: [] ∧ (HostCall.keyUp 15).releases 15 ∧
    ∃ symbol c, Config.keymap symbol = none ∧ (State.reset.setHost [c]).host = c :: [] ∧
      (c = .hostKeyDown symbol ∨ c = .hostKeyUp symbol) := by
  obtain ⟨symbol, h⟩ := exists_unmapped_symbol
  exact ⟨rfl, rfl, .inl rfl, symbol, _, h, rfl, .inl rfl⟩

/-- In `AwaitingKey`, with the timers at 255 and 0. -/
theorem test_meets_TickCountsTheTimersDown :
    (((State.reset.setDt 255).setMode (.awaitingKey 0)).setSlots (some [.tick])).slots = some (.tick :: []) ∧
    (((State.reset.setDt 255).setMode (.awaitingKey 0)).setSlots (some [.tick])).isFaulted = false := by decide

/-- `s` about to fetch a word across the top of memory. -/
def acrossTheTop (s : State) : State := oneCycle ((s.writeMem 0xFFF 0xB1).setPc 0x0FFF)

/-- Both values of `P_BNNN`, and a wait. -/
theorem test_meets_StepRunsTheDecodedInstruction : (acrossTheTop State.reset).mode = .running ∧
    (acrossTheTop State.reset).slots = some (.cycle :: []) ∧ (Instr.jpV0 0x1F0).wellFormedWith .jumpV0 = true ∧
    decodeBytesWith (acrossTheTop State.reset).policies.bnnn
      [(acrossTheTop State.reset).readMem 0xFFF, (acrossTheTop State.reset).readMem 0x1000] = .ok (.jpV0 0x1F0, []) ∧
    (Instr.unknown 0xB1F0).wellFormedWith .unrecognized = true ∧
    decodeBytesWith (acrossTheTop otherPolicies).policies.bnnn
      [(acrossTheTop otherPolicies).readMem 0xFFF, (acrossTheTop otherPolicies).readMem 0x1000] = .ok (.unknown 0xB1F0, []) ∧
    (oneCycle (State.reset.setMode (.awaitingKey 15))).mode = .awaitingKey 15 ∧
    (oneCycle (State.reset.setMode (.awaitingKey 15))).slots = some (.cycle :: []) :=
  ⟨by decide, by decide, by decide, by rfl, by decide, by rfl, by decide, by decide⟩

/-- A script of calls that may follow the load, and a machine with no call at hand. -/
theorem test_meets_EveryRunHasOneEndState : (∀ c ∈ ([.advance 0 [], .keyDown 3, .keyUp 3, .advance 1 [.tick]] : List HostCall),
    c.inScript) ∧ State.reset.slots = none ∧ State.reset.host = [] := by
  simp only [List.forall_mem_cons, HostCall.inScript]
  exact ⟨⟨le_refl _, trivial, trivial, zero_le_one, by simp⟩, rfl, rfl⟩

/-- The state after a RET on the empty stack at 0x200, the host about to call `advance(0)`. -/
def faultedState : State := (State.reset.incPc.raiseFault .stackUnderflow 0x00EE).setHost [.advance 0 []]

theorem no_load (bytes : List Byte) : ¬ faultedState.aboutToServe (.loadProgram bytes) := by
  rintro ⟨-, rest, h⟩
  cases h

theorem test_meets_FaultedIsAbsorbing : faultedState.mode = .faulted ⟨.stackUnderflow, 0x200, 0x00EE⟩ ∧
    (∀ bytes, ¬ faultedState.aboutToServe (.loadProgram bytes)) ∧ (∃ t, step faultedState = .next t) ∧
    faultedState.slots = none ∧ faultedState.host = .advance 0 [] :: [] ∧ (0 : Rat) ≤ 0 :=
  ⟨by decide, no_load, ⟨_, eq_nextOf (by decide +kernel)⟩, rfl, rfl, le_refl _⟩

/-- A state in the invariant that is not the state after construction: 16 stack entries, an odd `PC`, a byte written, policies other
than the defaults. -/
def busy : State := (((otherPolicies.writeMem 0x300 0x12).setI 0x300).setStack (List.replicate 16 0x202)).setPc 0x301

theorem busy_inv : busy.Inv := ⟨by decide, by decide, le_refl _, cyclePeriod_pos, le_refl _, busy.timerPeriod_pos⟩

/-- `busy`, the host about to call `advance(d)`. -/
def busyAdvance (d : Rat) : State := busy.setHost [.advance d [.tick]]

theorem busyAdvance_inv (d : Rat) : (busyAdvance d).Inv :=
  ⟨busy_inv.memory, busy_inv.depth, le_refl _, cyclePeriod_pos, le_refl _, busy.timerPeriod_pos⟩

/-- Both clauses: one timer period, and a negative duration. -/
theorem test_meets_AdvanceCountsWholePeriods : (busyAdvance (-1)).slots = none ∧
    (busyAdvance (-1)).host = .advance (-1) [.tick] :: [] ∧ (-1 : Rat) < 0 ∧ (busyAdvance busy.policies.timerPeriod).slots = none ∧
    (busyAdvance busy.policies.timerPeriod).host = .advance busy.policies.timerPeriod [.tick] :: [] ∧
    (busyAdvance busy.policies.timerPeriod).Inv ∧ (0 : Rat) ≤ busy.policies.timerPeriod ∧
    (busyAdvance busy.policies.timerPeriod).isFaulted = false :=
  ⟨rfl, rfl, by decide +kernel, rfl, rfl, busyAdvance_inv _, busy.timerPeriod_pos.le, rfl⟩

/-- An order that asks for a tick first, and the counts of a list of slots. -/
theorem test_meets_EveryInterleavingIsAdmitted : (busyAdvance busy.policies.timerPeriod).Inv ∧ (0 : Rat) ≤ busy.policies.timerPeriod ∧
    (busyAdvance busy.policies.timerPeriod).isFaulted = false ∧ (busyAdvance busy.policies.timerPeriod).slots = none ∧
    (busyAdvance busy.policies.timerPeriod).host = .advance busy.policies.timerPeriod [.tick] :: [] ∧
    ([.tick, .cycle] : List Slot).count .cycle = 1 ∧ ([.tick, .cycle] : List Slot).count .tick = 1 :=
  ⟨busyAdvance_inv _, busy.timerPeriod_pos.le, rfl, rfl, rfl, rfl, rfl⟩

/-- Both clauses: no slot left, `Faulted`, and a CLS as the next cycle. -/
theorem test_meets_AdvanceReturnsTheRedrawFlag : (State.reset.setSlots (some [])).slots = some [] ∧
    (faultedState.setSlots (some [.tick])).isFaulted = true ∧
    ((withCells 0 [(0x201, 0xE0)]).setSlots (some [.cycle])).slots = some [.cycle] ∧
    ((withCells 0 [(0x201, 0xE0)]).setSlots (some [.cycle])).isFaulted = false ∧
    ((withCells 0 [(0x201, 0xE0)]).setSlots (some [.cycle])).fetches (.cls 0x0) := ⟨rfl, rfl, rfl, rfl, by decide, by decide⟩

theorem test_meets_AdvanceAlwaysReturns : (State.reset.setSlots (some [.cycle, .tick])).slots = some [.cycle, .tick] := rfl

theorem test_meets_CarriedRemaindersLoseNoPeriod : (0 : Rat) < 1 / 60 ∧ ∀ d ∈ ([1 / 120, 0, 1 / 120] : List Rat), 0 ≤ d := by
  decide +kernel

theorem test_meets_CanonicalMemoryIsUnique : Memory.wf Params.font [(0x300, 0x12), (0xFFF, 0x34)] = true ∧
    ∀ c, c < 0x1000 → Memory.get Params.font [(0x300, 0x12), (0xFFF, 0x34)] c = Memory.get Params.font [(0x300, 0x12), (0xFFF, 0x34)] c :=
  ⟨by decide, fun _ _ => rfl⟩

/-- Every clause: 3584 and 3585 bytes, and a load out of turn. -/
theorem test_meets_LoadProgramCopiesOrRefuses :
    (State.reset.setHost [.loadProgram (List.replicate 3584 0)]).slots = none ∧
    (State.reset.setHost [.loadProgram (List.replicate 3584 0)]).host = .loadProgram (List.replicate 3584 0) :: [] ∧
    (State.reset.setHost [.loadProgram (List.replicate 3584 0)]).mayLoad = true ∧
    (List.replicate 3584 (0 : Byte)).length ≤ 3584 ∧ (List.replicate 3585 (0 : Byte)).length > 3584 ∧
    ((State.reset.setHost [.loadProgram []]).closeLoading).mayLoad = false :=
  ⟨rfl, rfl, rfl, by rw [List.length_replicate], by rw [List.length_replicate]; omega, rfl⟩

theorem test_meets_HostReadsChangeNothing : (State.reset.setHost [.readDisplay]).slots = none ∧
    (State.reset.setHost [.readDisplay]).host = .readDisplay :: [] ∧
    (State.reset.setHost [.readDebugSnapshot]).host = .readDebugSnapshot :: [] := ⟨rfl, rfl, rfl⟩

theorem test_meets_EveryStepKeepsTheInvariant : (busyAdvance 0).Inv ∧ (∃ t, step (busyAdvance 0) = .next t) ∧
    ∃ t, step (oneCycle busy) = .next t :=
  ⟨busyAdvance_inv 0, ⟨_, eq_nextOf (by decide +kernel)⟩, ⟨_, eq_nextOf (by decide +kernel)⟩⟩

/-- A fault record that tells the truth, and a step. -/
theorem test_meets_FaultRecordStaysTruthful : faultedState.Inv ∧ faultedState.faultTruthful ∧ ∃ t, step faultedState = .next t := by
  refine ⟨⟨by decide, by decide, le_refl _, cyclePeriod_pos, le_refl _, faultedState.timerPeriod_pos⟩, ?_, _,
    eq_nextOf (by decide +kernel)⟩
  intro f hf
  have : f = ⟨.stackUnderflow, 0x200, 0x00EE⟩ := by
    have h : faultedState.mode = .faulted ⟨.stackUnderflow, 0x200, 0x00EE⟩ := by decide
    rw [h] at hf
    cases hf
    rfl
  subst this
  exact ⟨by decide, by decide, 0x0, by decide⟩

/-- CLS over a lit pixel. -/
theorem test_meets_OnlyClearAndDrawChangeTheDisplay : ∃ t, step ((withPixel 5 7).withFetchWord 16 0x00E0) = .next t ∧
    t.disp ≠ ((withPixel 5 7).withFetchWord 16 0x00E0).disp := ⟨_, eq_nextOf (by decide +kernel), by decide +kernel⟩

theorem test_meets_OnlyCallAndReturnTouchTheStack : ∃ t, step callReturn = .next t ∧ t.stack ≠ callReturn.stack :=
  ⟨_, eq_nextOf (by decide +kernel), by decide +kernel⟩

/-- BCD at 0x300. -/
theorem test_meets_OnlyStoresAndLoadsChangeMemory :
    ∃ t, step (((withRegs [(0, 0xFE)]).setI 0x300).withFetchWord 16 0xF033) = .next t ∧
      t.mem ≠ (((withRegs [(0, 0xFE)]).setI 0x300).withFetchWord 16 0xF033).mem :=
  ⟨_, eq_nextOf (by decide +kernel), by decide +kernel⟩

theorem test_meets_OnlyIndexInstructionsChangeI : ∃ t, step (State.reset.withFetchWord 16 0xA300) = .next t ∧
    t.i ≠ (State.reset.withFetchWord 16 0xA300).i := ⟨_, eq_nextOf (by decide +kernel), by decide +kernel⟩

/-- A tick, a load of ST and a key press. -/
theorem test_meets_TimersAndKeysChangeOnlyAsNamed :
    (∃ t, step ((State.reset.setDt 1).setSlots (some [.tick])) = .next t ∧ t.dt ≠ 1) ∧
    (∃ t, step ((withRegs [(1, 0x10)]).withFetchWord 16 0xF118) = .next t ∧ t.st ≠ 0) ∧
    ∃ t, step (State.reset.setHost [.keyDown 6]) = .next t ∧ t.key ≠ State.reset.key :=
  ⟨⟨_, eq_nextOf (by decide +kernel), by decide +kernel⟩, ⟨_, eq_nextOf (by decide +kernel), by decide +kernel⟩,
    ⟨_, eq_nextOf (by decide +kernel), by decide +kernel⟩⟩

/-- A wait begins, a wait ends, and a RET faults. -/
theorem test_meets_MacroStateChangesInThreeWays :
    (∃ t, step (State.reset.withFetchWord 16 0xF20A) = .next t ∧ t.mode ≠ .running) ∧
    (∃ t, step ((State.reset.setMode (.awaitingKey 2)).setHost [.keyDown 6]) = .next t ∧ t.mode ≠ .awaitingKey 2) ∧
    ∃ t, step (State.reset.withFetchWord 16 0x00EE) = .next t ∧ t.mode ≠ .running :=
  ⟨⟨_, eq_nextOf (by decide +kernel), by decide +kernel⟩, ⟨_, eq_nextOf (by decide +kernel), by decide +kernel⟩,
    ⟨_, eq_nextOf (by decide +kernel), by decide +kernel⟩⟩

end Sys2Proof.Machine.Tests
end

section
/-! Whole-machine rules about the state (10_state.md): what one move of the machine can change, the invariant every step keeps,
and the state after construction. -/

namespace Sys2Proof.Machine

/-! ### What the instructions may change -/

/-- An instruction changes a register only when its footprint names it. -/
theorem mem_footprint_regs_of_ne {i : Instr} {s t : State} {r : Reg} (h : exec i s = .next t) (hne : t.getV r ≠ s.getV r) :
    r ∈ (footprint i s).regs := by
  by_contra hr
  exact hne ((exec_keeps h).regs r hr)

/-- Only CALL and RET may change the stack (R27, R28). -/
theorem footprint_stack {i : Instr} {s : State} (h : (footprint i s).stack = true) :
    (∃ nnn, i = .call nnn) ∨ ∃ z, i = .ret z := by
  cases i
  case call nnn => exact .inl ⟨nnn, rfl⟩
  case ret z => exact .inr ⟨z, rfl⟩
  all_goals cases h

/-- Only LD I, ADD I, LD F and, under `advance`, Fx55 and Fx65 may change `I` (R22, R194). -/
theorem footprint_i {i : Instr} {s : State} (h : (footprint i s).i = true) :
    (∃ nnn, i = .ldI nnn) ∨ (∃ x, i = .addI x) ∨ (∃ x, i = .ldF x) ∨
    (s.policies.indexAdvance = .advance ∧ ∃ x, i = .ldMemV x ∨ i = .ldVMem x) := by
  cases i
  case ldI nnn => exact .inl ⟨nnn, rfl⟩
  case addI x => exact .inr (.inl ⟨x, rfl⟩)
  case ldF x => exact .inr (.inr (.inl ⟨x, rfl⟩))
  case ldMemV x => exact .inr (.inr (.inr ⟨of_decide_eq_true h, x, .inl rfl⟩))
  case ldVMem x => exact .inr (.inr (.inr ⟨of_decide_eq_true h, x, .inr rfl⟩))
  all_goals cases h

/-- Only LD DT, Vx may change `DT` (R25). -/
theorem footprint_dt {i : Instr} {s : State} (h : (footprint i s).dt = true) : ∃ x, i = .ldDt x := by
  cases i
  case ldDt x => exact ⟨x, rfl⟩
  all_goals cases h

/-- Only LD ST, Vx may change `ST` (R26). -/
theorem footprint_st {i : Instr} {s : State} (h : (footprint i s).st = true) : ∃ x, i = .ldSt x := by
  cases i
  case ldSt x => exact ⟨x, rfl⟩
  all_goals cases h

/-- An instruction changes `M` only to begin a wait or to fault (R35, R252). -/
theorem exec_mode_cases {i : Instr} {s t : State} (h : exec i s = .next t) (hne : t.mode ≠ s.mode) :
    (∃ x, i = .ldVK x ∧ t.mode = .awaitingKey x) ∨ (((∃ nnn, i = .call nnn) ∨ ∃ z, i = .ret z) ∧ t.isFaulted = true) := by
  cases i
  case ldVK x => cases h; exact .inl ⟨x, rfl, rfl⟩
  case call nnn =>
    rcases execCall_cases nnn s with ⟨-, e⟩ | ⟨-, e⟩
    · cases h.symm.trans e
      exact absurd rfl hne
    · cases h.symm.trans e
      exact .inr ⟨.inl ⟨nnn, rfl⟩, rfl⟩
  case ret z =>
    rcases execRet_cases z s with ⟨l, a, -, e⟩ | ⟨-, e⟩
    · cases h.symm.trans e
      exact absurd rfl hne
    · cases h.symm.trans e
      exact .inr ⟨.inr ⟨z, rfl⟩, rfl⟩
  all_goals exact absurd ((exec_keeps h).mode rfl) hne

/-- Settles O19: VF is in the footprint of an instruction that changes it, and the footprints name VF only as listed. -/
theorem onlyFlagInstructionsWriteVF : Obligations.OnlyFlagInstructionsWriteVF := by
  intro i s t h hne
  have hVF : VF ∈ (footprint i s).regs := mem_footprint_regs_of_ne h hne
  cases i
  case addReg | sub | subn | shr | shl | drw => trivial
  case ldImm | addImm | ldReg | orReg | andReg | xorReg | rnd | ldVDt => exact (List.mem_singleton.1 hVF).symm
  case ldVMem x =>
    have hle : VF ≤ x := of_decide_eq_true (List.mem_filter.1 hVF).2
    exact le_antisymm (Fin.le_last x) hle
  all_goals exact absurd hVF List.not_mem_nil

/-! ### What one move of the machine can change -/

/-- Nothing the program sees of the core but memory has changed from `s` to `t`: what the moves of the engine and the host
that are no instruction, tick or key event leave unchanged. -/
structure Quiet (s t : State) : Prop where
  v : t.v = s.v
  i : t.i = s.i
  pc : t.pc = s.pc
  dt : t.dt = s.dt
  st : t.st = s.st
  stack : t.stack = s.stack
  disp : t.disp = s.disp
  key : t.key = s.key
  mode : t.mode = s.mode
  draws : t.draws = s.draws
  policies : t.policies = s.policies

theorem quiet_refl (s : State) : Quiet s s := by constructor <;> rfl

theorem quiet_setSlots (s : State) (l : Option (List Slot)) : Quiet s (s.setSlots l) := by constructor <;> rfl

theorem quiet_endAdvance (s : State) : Quiet s s.endAdvance := by constructor <;> rfl

theorem quiet_setHost (s : State) (l : List HostCall) : Quiet s (s.setHost l) := by constructor <;> rfl

theorem quiet_emit (s : State) (o : Output) : Quiet s (s.emit o) := by constructor <;> rfl

theorem Quiet.trans {s t u : State} (h : Quiet s t) (k : Quiet t u) : Quiet s u where
  v := k.v.trans h.v
  i := k.i.trans h.i
  pc := k.pc.trans h.pc
  dt := k.dt.trans h.dt
  st := k.st.trans h.st
  stack := k.stack.trans h.stack
  disp := k.disp.trans h.disp
  key := k.key.trans h.key
  mode := k.mode.trans h.mode
  draws := k.draws.trans h.draws
  policies := k.policies.trans h.policies

/-- A load changes memory and the host's side alone (R282). -/
theorem quiet_loadProgram (s : State) (bytes : List Byte) : Quiet s (s.closeLoading.loadProgram bytes) := by
  rcases loadProgram_cases s.closeLoading bytes with ⟨-, e⟩ | ⟨-, e⟩
  · rw [e, State.writeBytes_eq]
    constructor <;> rfl
  · rw [e]
    constructor <;> rfl

/-- The start of an `advance` call changes the accumulators and the progress of the call alone (R123). -/
theorem quiet_beginAdvance (s : State) (d : Rat) (order : List Slot) : Quiet s (s.beginAdvance d order) := by
  rcases beginAdvance_cases s d order with ⟨-, e⟩ | ⟨-, e⟩ <;> rw [e]
  · constructor <;> rfl
  · constructor <;> simp

/-- The kinds of move a step can be, by what they change of the core. -/
inductive Move (s t : State) : Prop where
  /-- A cycle that fetches `i` and runs it. -/
  | instruction (i : Instr) (u : State) (hrun : s.aboutToRun i) (hu : CycleStart s u) (hexec : exec i u.incPc = .next t)
  /-- A timer tick (R122). -/
  | tick (rest : List Slot) (htick : s.aboutToTick) (ht : t = (s.setSlots (some rest)).tick)
  /-- A call that presses key `k` (R126, R128). -/
  | press (c : HostCall) (k : Key) (rest : List HostCall) (hserve : s.aboutToServe c) (hc : c.presses k)
      (ht : t = (s.setHost rest).keyDown k)
  /-- A call that releases key `k` (R127, R128). -/
  | release (c : HostCall) (k : Key) (rest : List HostCall) (hserve : s.aboutToServe c) (hc : c.releases k)
      (ht : t = (s.setHost rest).keyUp k)
  /-- A used-up cycle of a wait, the start or end of an `advance` call, any other host call, or no move at all. -/
  | quiet (h : Quiet s t)

/-- Serving a host call is a key event or quiet. -/
theorem move_of_serve {s t : State} {c : HostCall} {rest : List HostCall} (hsl : s.slots = none) (hh : s.host = c :: rest)
    (h : (s.setHost rest).serve c = .next t) : Move s t := by
  have hserve : s.aboutToServe c := ⟨hsl, rest, hh⟩
  have hq : Quiet s (s.setHost rest) := quiet_setHost s rest
  rcases serve_cases h with ⟨bytes, -, -, rfl⟩ | ⟨d, order, -, -, rfl⟩ | ⟨k, hk, rfl⟩ | ⟨k, hk, rfl⟩ | rfl | ⟨o, rfl⟩
  · exact .quiet (hq.trans (quiet_loadProgram _ bytes))
  · exact .quiet (hq.trans (quiet_beginAdvance _ d order))
  · exact .press c k rest hserve hk rfl
  · exact .release c k rest hserve hk rfl
  · exact .quiet hq
  · exact .quiet (hq.trans (quiet_emit _ o))

/-- Every step with a next state is a move of one of these kinds. -/
theorem move_of_step {s t : State} (h : step s = .next t) : Move s t := by
  rcases step_cases h with ⟨i, u, hrun, hu, he⟩ | ⟨-, rest, -, -, rfl⟩ | ⟨rest, hsl, hf, ht⟩ | ⟨l, -, -, rfl⟩ |
    ⟨c, rest, hsl, hh, hc⟩ | ⟨-, rfl⟩
  · exact .instruction i u hrun hu he
  · exact .quiet (quiet_setSlots s _)
  · exact .tick rest ⟨hf, rest, hsl⟩ ht
  · exact .quiet (quiet_endAdvance s)
  · exact move_of_serve hsl hh hc
  · exact .quiet (quiet_refl _)

/-! ### What changes outside an instruction -/

/-- A key press changes the registers, the keypad and `M`, and nothing else (R126). -/
theorem State.keyDown_eq (s : State) (k : Key) :
    s.keyDown k = { s with v := (s.keyDown k).v, key := (s.keyDown k).key, mode := (s.keyDown k).mode } := by
  rcases keyDown_cases s k with ⟨r, -, e⟩ | ⟨-, e⟩ <;> rw [e] <;> rfl

/-- What no move but an instruction's cycle changes: a tick and a key event leave it too. -/
structure Undisturbed (s t : State) : Prop where
  i : t.i = s.i
  pc : t.pc = s.pc
  stack : t.stack = s.stack
  disp : t.disp = s.disp
  draws : t.draws = s.draws
  policies : t.policies = s.policies

theorem instruction_or_undisturbed {s t : State} (h : step s = .next t) :
    (∃ i u, s.aboutToRun i ∧ CycleStart s u ∧ exec i u.incPc = .next t) ∨ Undisturbed s t := by
  cases move_of_step h with
  | instruction i u hrun hu he => exact .inl ⟨i, u, hrun, hu, he⟩
  | tick rest htick ht => subst ht; exact .inr (by constructor <;> rfl)
  | press c k rest hserve hc ht => rw [ht, State.keyDown_eq]; exact .inr (by constructor <;> rfl)
  | release c k rest hserve hc ht => subst ht; exact .inr (by constructor <;> rfl)
  | quiet hq => exact .inr ⟨hq.i, hq.pc, hq.stack, hq.disp, hq.draws, hq.policies⟩

/-! ### Which steps change the stack, `I`, the timers, the keypad and `M` -/

/-- Settles O56: outside an instruction the stack is unchanged, and only the footprints of CALL and RET hold it. -/
theorem onlyCallAndReturnTouchTheStack : Obligations.OnlyCallAndReturnTouchTheStack := by
  intro s t h hne
  rcases instruction_or_undisturbed h with ⟨i, u, hrun, ⟨rest, -, -, rfl⟩, he⟩ | hu
  · have hfoot := Bool.of_not_eq_false fun hf => hne ((exec_keeps he).stack hf)
    rcases footprint_stack hfoot with ⟨nnn, rfl⟩ | ⟨z, rfl⟩
    · exact .inl ⟨nnn, hrun⟩
    · exact .inr ⟨z, hrun⟩
  · exact absurd hu.stack hne

/-- Settles O58: outside an instruction `I` is unchanged, and only the footprints of the index instructions hold it. -/
theorem onlyIndexInstructionsChangeI : Obligations.OnlyIndexInstructionsChangeI := by
  intro s t h hne
  rcases instruction_or_undisturbed h with ⟨i, u, hrun, ⟨rest, -, -, rfl⟩, he⟩ | hu
  · have hfoot := Bool.of_not_eq_false fun hf => hne ((exec_keeps he).i hf)
    rcases footprint_i hfoot with ⟨nnn, rfl⟩ | ⟨x, rfl⟩ | ⟨x, rfl⟩ | ⟨hp, x, rfl | rfl⟩
    · exact .inl ⟨nnn, hrun⟩
    · exact .inr (.inl ⟨x, hrun⟩)
    · exact .inr (.inr (.inl ⟨x, hrun⟩))
    · exact .inr (.inr (.inr ⟨hp, x, .inl hrun⟩))
    · exact .inr (.inr (.inr ⟨hp, x, .inr hrun⟩))
  · exact absurd hu.i hne

/-- Settles O59, by the kind of the move. -/
theorem timersAndKeysChangeOnlyAsNamed : Obligations.TimersAndKeysChangeOnlyAsNamed := by
  intro s t h
  cases move_of_step h with
  | instruction i u hrun hu he =>
    obtain ⟨rest, -, -, rfl⟩ := hu
    have hk := exec_keeps he
    refine ⟨fun hne => .inl ?_, fun hne => .inl ?_, fun hne => absurd hk.key hne⟩
    · obtain ⟨x, rfl⟩ := footprint_dt (Bool.of_not_eq_false fun hf => hne (hk.dt hf))
      exact ⟨x, hrun⟩
    · obtain ⟨x, rfl⟩ := footprint_st (Bool.of_not_eq_false fun hf => hne (hk.st hf))
      exact ⟨x, hrun⟩
  | tick rest htick ht =>
    subst ht
    exact ⟨fun _ => .inr htick, fun _ => .inr htick, fun hne => absurd rfl hne⟩
  | press c k rest hserve hc ht =>
    rw [ht, State.keyDown_eq]
    exact ⟨fun hne => absurd rfl hne, fun hne => absurd rfl hne, fun _ => ⟨c, k, hserve, .inl hc⟩⟩
  | release c k rest hserve hc ht =>
    subst ht
    exact ⟨fun hne => absurd rfl hne, fun hne => absurd rfl hne, fun _ => ⟨c, k, hserve, .inr hc⟩⟩
  | quiet hq => exact ⟨fun hne => absurd hq.dt hne, fun hne => absurd hq.st hne, fun hne => absurd hq.key hne⟩

/-- Settles O60, by the kind of the move: an instruction begins a wait or faults, and a key press ends a wait. -/
theorem macroStateChangesInThreeWays : Obligations.MacroStateChangesInThreeWays := by
  intro s t h hne
  cases move_of_step h with
  | instruction i u hrun hu he =>
    obtain ⟨rest, -, -, rfl⟩ := hu
    rcases exec_mode_cases he hne with ⟨x, rfl, hm⟩ | ⟨⟨nnn, rfl⟩ | ⟨z, rfl⟩, hf⟩
    · exact .inl ⟨x, hrun, hm⟩
    · exact .inr (.inr ⟨.inl ⟨nnn, hrun⟩, hf⟩)
    · exact .inr (.inr ⟨.inr ⟨z, hrun⟩, hf⟩)
  | tick rest htick ht => subst ht; exact absurd rfl hne
  | press c k rest hserve hc ht =>
    rcases keyDown_cases (s.setHost rest) k with ⟨r, hm, e⟩ | ⟨-, e⟩
    · exact .inr (.inl ⟨r, c, k, hm, hserve, hc, by rw [ht, e]; rfl⟩)
    · exact absurd (by rw [ht, e]; rfl) hne
  | release c k rest hserve hc ht => subst ht; exact absurd rfl hne
  | quiet hq => exact absurd hq.mode hne

/-! ### The invariant -/

/-- The invariant speaks of memory, the stack, the accumulators and the policies alone. -/
theorem State.Inv.congr {s t : State} (h : s.Inv) (hm : t.mem = s.mem) (hs : t.stack = s.stack) (hc : t.cycleAcc = s.cycleAcc)
    (ht : t.timerAcc = s.timerAcc) (hp : t.policies = s.policies) : t.Inv where
  memory := by rw [hm, hp]; exact h.memory
  depth := by rw [hs]; exact h.depth
  cycleAcc_nonneg := by rw [hc]; exact h.cycleAcc_nonneg
  cycleAcc_lt := by rw [hc]; exact h.cycleAcc_lt
  timerAcc_nonneg := by rw [ht]; exact h.timerAcc_nonneg
  timerAcc_lt := by rw [ht, hp]; exact h.timerAcc_lt

/-- No instruction takes the stack above 16 entries: CALL pushes only below 16 (R27, R29). -/
theorem exec_keeps_depth {i : Instr} {s t : State} (h : exec i s = .next t) (hs : s.stack.length ≤ 16) :
    t.stack.length ≤ 16 := by
  cases i
  case call nnn =>
    rcases execCall_cases nnn s with ⟨hlt, e⟩ | ⟨-, e⟩
    · cases h.symm.trans e
      simpa using hlt
    · cases h.symm.trans e
      exact hs
  case ret z =>
    rcases execRet_cases z s with ⟨l, a, hl, e⟩ | ⟨-, e⟩
    · cases h.symm.trans e
      rw [hl, List.length_append] at hs
      exact (Nat.le_add_right _ _).trans hs
    · cases h.symm.trans e
      exact hs
  all_goals
    rw [(exec_keeps h).stack rfl]
    exact hs

theorem exec_keeps_inv {i : Instr} {s t : State} (h : exec i s = .next t) (hs : s.Inv) : t.Inv where
  memory := exec_keeps_wf h hs.memory
  depth := exec_keeps_depth h hs.depth
  cycleAcc_nonneg := by rw [(exec_keeps h).cycleAcc]; exact hs.cycleAcc_nonneg
  cycleAcc_lt := by rw [(exec_keeps h).cycleAcc]; exact hs.cycleAcc_lt
  timerAcc_nonneg := by rw [(exec_keeps h).timerAcc]; exact hs.timerAcc_nonneg
  timerAcc_lt := by rw [(exec_keeps h).timerAcc, (exec_keeps h).policies]; exact hs.timerAcc_lt

/-- A load writes bytes, which keeps memory canonical, or nothing (R282). -/
theorem loadProgram_keeps_inv {s : State} (bytes : List Byte) (hs : s.Inv) : (s.loadProgram bytes).Inv := by
  rcases loadProgram_cases s bytes with ⟨-, e⟩ | ⟨-, e⟩ <;> rw [e]
  · have hwf := State.wf_writeBytes 0x200 bytes hs.memory
    rw [State.writeBytes_eq] at hwf ⊢
    exact ⟨hwf, hs.depth, hs.cycleAcc_nonneg, hs.cycleAcc_lt, hs.timerAcc_nonneg, hs.timerAcc_lt⟩
  · exact hs.congr rfl rfl rfl rfl rfl

/-- An `advance` call leaves in each accumulator the rest of a division by its period (R123). -/
theorem beginAdvance_keeps_inv {s : State} {d : Rat} (order : List Slot) (hd : 0 ≤ d) (hs : s.Inv) :
    (s.beginAdvance d order).Inv := by
  rcases beginAdvance_cases s d order with ⟨-, e⟩ | ⟨-, e⟩ <;> rw [e]
  · exact hs.congr rfl rfl rfl rfl rfl
  · obtain ⟨-, hc, hc'⟩ := splitTime_spec cyclePeriod_pos (add_nonneg hs.cycleAcc_nonneg hd)
    obtain ⟨-, ht, ht'⟩ := splitTime_spec s.timerPeriod_pos (add_nonneg hs.timerAcc_nonneg hd)
    exact ⟨hs.memory, hs.depth, hc, hc', ht, ht'⟩

theorem serve_keeps_inv {s t : State} {c : HostCall} (h : s.serve c = .next t) (hs : s.Inv) : t.Inv := by
  rcases serve_cases h with ⟨bytes, -, -, rfl⟩ | ⟨d, order, -, hd, rfl⟩ | ⟨k, -, rfl⟩ | ⟨k, -, rfl⟩ | rfl | ⟨o, rfl⟩
  · exact loadProgram_keeps_inv bytes (hs.congr rfl rfl rfl rfl rfl)
  · exact beginAdvance_keeps_inv order hd hs
  · rw [State.keyDown_eq]
    exact hs.congr rfl rfl rfl rfl rfl
  · exact hs.congr rfl rfl rfl rfl rfl
  · exact hs
  · exact hs.congr rfl rfl rfl rfl rfl

theorem step_keeps_inv {s t : State} (h : step s = .next t) (hs : s.Inv) : t.Inv := by
  rcases step_cases h with ⟨i, u, -, ⟨rest, -, -, rfl⟩, he⟩ | ⟨-, rest, -, -, rfl⟩ | ⟨rest, -, -, rfl⟩ | ⟨l, -, -, rfl⟩ |
    ⟨c, rest, -, -, hc⟩ | ⟨-, rfl⟩
  · exact exec_keeps_inv he (hs.congr rfl rfl rfl rfl rfl)
  · exact hs.congr rfl rfl rfl rfl rfl
  · exact hs.congr rfl rfl rfl rfl rfl
  · exact hs.congr rfl rfl rfl rfl rfl
  · exact serve_keeps_inv hc (hs.congr rfl rfl rfl rfl rfl)
  · exact hs

/-- No step changes a policy, the font or the timer period (R39). -/
theorem step_keeps_policies {s t : State} (h : step s = .next t) : t.policies = s.policies := by
  rcases instruction_or_undisturbed h with ⟨i, u, -, ⟨rest, -, -, rfl⟩, he⟩ | hu
  · exact (exec_keeps he).policies
  · exact hu.policies

/-- Settles O53: each kind of step keeps the invariant, and none changes the policies. -/
theorem everyStepKeepsTheInvariant : Obligations.EveryStepKeepsTheInvariant :=
  fun _ _ h => ⟨step_keeps_policies h, step_keeps_inv h⟩

/-! ### The state after construction -/

@[simp] theorem construct_getV (p : Policies) (r : Reg) : (State.construct p).getV r = 0 := by
  simp [State.construct, State.getV]

theorem construct_pixel (p : Policies) (X : Fin 64) (Y : Fin 32) : (State.construct p).disp.get X Y = false := by
  simp [State.construct, Display.get]

theorem construct_key (p : Policies) (k : Key) : (State.construct p).key[k] = false := by
  simp [State.construct]

/-- Memory after construction lists no cell, so every cell reads as the font or zero (R31, R42). -/
theorem construct_readMem (p : Policies) {c : Nat} (hc : c < 0x1000) :
    (State.construct p).readMem c = Memory.resetByte p.font c := by
  rw [State.readMem, cellOf_eq_self hc]
  rfl

theorem construct_inv (p : Policies) : (State.construct p).Inv where
  memory := rfl
  depth := Nat.zero_le 16
  cycleAcc_nonneg := le_rfl
  cycleAcc_lt := cyclePeriod_pos
  timerAcc_nonneg := le_rfl
  timerAcc_lt := (State.construct p).timerPeriod_pos

/-- A machine that is `Running` records no fault. -/
theorem faultTruthful_of_running {s : State} (h : s.mode = .running) : s.faultTruthful := by
  intro f hf
  cases h.symm.trans hf

/-- Settles O51: every field as construction gives it. -/
theorem constructionValues : Obligations.ConstructionValues := by
  refine ⟨?_, rfl, rfl⟩
  rintro p s rfl
  refine ⟨construct_getV p, rfl, rfl, rfl, rfl, rfl, construct_pixel p, construct_key p, rfl, rfl, rfl, ?_, ?_, rfl⟩
  · intro c hc
    rw [construct_readMem p (by omega)]
    simp [Memory.resetByte, Vector.getD, hc]
  · intro c hlo hc
    rw [construct_readMem p hc]
    exact dif_neg (by omega)

/-- Settles O52: memory lists no cell, the stack is empty, the accumulators are zero and no fault is recorded. -/
theorem constructionMeetsTheInvariant : Obligations.ConstructionMeetsTheInvariant :=
  ⟨fun p => ⟨construct_inv p, faultTruthful_of_running rfl⟩, construct_inv _, faultTruthful_of_running rfl⟩

end Sys2Proof.Machine
end

section
/-! Memory (20_memory.md): masked reads and writes, the canonical form as the only one of its content, and which moves of the
machine change memory. -/

namespace Sys2Proof.Machine

/-! ### Masked accesses -/

/-- A read sees the low 12 bits of its address alone (R52). -/
@[simp] theorem State.readMem_cellOf (s : State) (a : Nat) : s.readMem (cellOf a) = s.readMem a := by
  rw [State.readMem, cellOf_cellOf, ← State.readMem]

/-- A write changes the cell of its address and nothing else: it is a sequence of one write. -/
theorem keeps_writeMem (s : State) (a : Nat) (b : Byte) : Keeps { cells := [cellOf a] } s (s.writeMem a b) :=
  keeps_writeBytes s a [b]

/-- Settles O47: the mask is idempotent, the read-after-write law, and the frame of a write. -/
theorem everyAccessIsMasked : Obligations.EveryAccessIsMasked :=
  fun a c b s => ⟨(s.readMem_cellOf a).symm, s.readMem_writeMem a c b, keeps_writeMem s a b⟩

/-! ### The canonical form is unique -/

section
variable {f : Font} {k lo : Nat} {b : Byte} {m rest : Memory}

/-- The cells listed from `lo` up are listed from the first of them up. -/
theorem Memory.wfFrom_head (h : Memory.wfFrom f lo ((k, b) :: rest) = true) :
    Memory.wfFrom f k ((k, b) :: rest) = true := by
  rw [Memory.wfFrom_cons] at h ⊢
  exact ⟨le_rfl, h.2⟩

/-- A canonical list lists its first cell because that cell differs from what an unlisted one reads as: so a canonical list that
agrees with it on that cell cannot begin above it. -/
theorem Memory.le_head_of_get_eq {lo' : Nat} (hm : Memory.wfFrom f lo ((k, b) :: rest) = true)
    (hm' : Memory.wfFrom f lo' m = true) (h : Memory.get f ((k, b) :: rest) k = m.get f k) : lo' ≤ k := by
  obtain ⟨-, -, hb, -⟩ := Memory.wfFrom_cons.1 hm
  by_contra hlt
  have hreset : m.get f k = Memory.resetByte f k := Memory.get_of_lt hm' (Nat.not_le.1 hlt)
  have hhead : Memory.get f ((k, b) :: rest) k = b := if_pos rfl
  exact hb (hhead.symm.trans (h.trans hreset))

/-- The first cell of a canonical list is one of the 4096 and differs from what an empty list reads as. -/
theorem Memory.exists_get_ne_of_cons (hm : Memory.wfFrom f lo ((k, b) :: rest) = true) :
    ∃ c < 0x1000, Memory.get f ((k, b) :: rest) c ≠ Memory.get f [] c := by
  obtain ⟨-, hk, hb, -⟩ := Memory.wfFrom_cons.1 hm
  refine ⟨k, hk, ?_⟩
  simpa [Memory.get] using hb

end

/-- Canonical lists with the same bytes are equal: they begin with the same cell, and past it they have the same bytes again. -/
theorem Memory.eq_of_get_eq {f : Font} {m m' : Memory} {lo lo' : Nat} (hm : Memory.wfFrom f lo m = true)
    (hm' : Memory.wfFrom f lo' m' = true) (h : ∀ c < 0x1000, m.get f c = m'.get f c) : m = m' := by
  induction m generalizing lo lo' m' with
  | nil =>
    cases m' with
    | nil => rfl
    | cons e' rest' =>
      obtain ⟨c, hc, hne⟩ := Memory.exists_get_ne_of_cons hm'
      exact absurd (h c hc).symm hne
  | cons e rest ih =>
    obtain ⟨k, b⟩ := e
    cases m' with
    | nil =>
      obtain ⟨c, hc, hne⟩ := Memory.exists_get_ne_of_cons hm
      exact absurd (h c hc) hne
    | cons e' rest' =>
      obtain ⟨k', b'⟩ := e'
      obtain ⟨-, hk, -, hrest⟩ := Memory.wfFrom_cons.1 hm
      obtain ⟨-, hk', -, hrest'⟩ := Memory.wfFrom_cons.1 hm'
      have hkk : k = k' := le_antisymm
        (Memory.le_head_of_get_eq hm' (Memory.wfFrom_head hm) (h k' hk').symm)
        (Memory.le_head_of_get_eq hm (Memory.wfFrom_head hm') (h k hk))
      subst hkk
      have hbb : b = b' := by simpa [Memory.get] using h k hk
      have htail : ∀ c < 0x1000, Memory.get f rest c = Memory.get f rest' c := by
        intro c hc
        by_cases hkc : k = c
        · subst hkc
          rw [Memory.get_of_lt hrest (Nat.lt_succ_self k), Memory.get_of_lt hrest' (Nat.lt_succ_self k)]
        · simpa [Memory.get, hkc] using h c hc
      rw [hbb, ih hrest hrest' htail]

/-- Settles O48, by induction on the lists. -/
theorem canonicalMemoryIsUnique : Obligations.CanonicalMemoryIsUnique :=
  fun _ _ _ hm hm' h => Memory.eq_of_get_eq hm hm' h

/-! ### Which moves change memory -/

/-- Of the instructions only LD B and LD [I], Vx change memory (R193, R195). -/
theorem store_of_exec_mem_ne {i : Instr} {s t : State} (h : exec i s = .next t) (hne : t.mem ≠ s.mem) :
    (∃ x, i = .ldB x) ∨ ∃ x, i = .ldMemV x := by
  rcases exec_mem h with e | ⟨x, hi, -⟩ | ⟨x, hi, -⟩
  · exact absurd e hne
  · exact .inl ⟨x, hi⟩
  · exact .inr ⟨x, hi⟩

/-- The start of an `advance` call leaves memory as it is (R123). -/
theorem State.beginAdvance_mem (s : State) (d : Rat) (order : List Slot) : (s.beginAdvance d order).mem = s.mem := by
  rcases beginAdvance_cases s d order with ⟨-, e⟩ | ⟨-, e⟩ <;> rw [e] <;> rfl

/-- Of the host's calls only `load_program` changes memory (R132). -/
theorem loadProgram_of_serve_mem_ne {s t : State} {c : HostCall} (h : s.serve c = .next t) (hne : t.mem ≠ s.mem) :
    ∃ bytes, c = .loadProgram bytes := by
  rcases serve_cases h with ⟨bytes, hc, -, -⟩ | ⟨d, order, -, -, rfl⟩ | ⟨k, -, rfl⟩ | ⟨k, -, rfl⟩ | rfl | ⟨o, rfl⟩
  · exact ⟨bytes, hc⟩
  · exact absurd (s.beginAdvance_mem d order) hne
  · exact absurd (congrArg State.mem (s.keyDown_eq k)) hne
  all_goals exact absurd rfl hne

/-- Settles O57, by the kind of the step: an instruction, a host call, or a move of the engine, which leaves memory alone. -/
theorem onlyStoresAndLoadsChangeMemory : Obligations.OnlyStoresAndLoadsChangeMemory := by
  intro s t h hne
  rcases step_cases h with ⟨i, u, hrun, ⟨rest, -, -, rfl⟩, he⟩ | ⟨-, rest, -, -, rfl⟩ | ⟨rest, -, -, rfl⟩ | ⟨l, -, -, rfl⟩ |
    ⟨c, rest, hsl, hh, hc⟩ | ⟨-, rfl⟩
  · rcases store_of_exec_mem_ne he hne with ⟨x, rfl⟩ | ⟨x, rfl⟩
    · exact .inl ⟨x, hrun⟩
    · exact .inr (.inl ⟨x, hrun⟩)
  · exact absurd rfl hne
  · exact absurd rfl hne
  · exact absurd rfl hne
  · obtain ⟨bytes, rfl⟩ := loadProgram_of_serve_mem_ne hc hne
    exact .inr (.inr ⟨bytes, hsl, rest, hh⟩)
  · exact absurd rfl hne

end Sys2Proof.Machine
end

section
/-! The opcode map (30_encoding.md): `encode` maps the well-formed instructions onto the words, and `decodeWith` is its inverse
under either value of `P_BNNN`. -/

namespace Sys2Proof

/-! ### The unknown words (R78) -/

/-- The words no row of the opcode map covers are those of the five classes of R78. -/
theorem isUnknownWord_iff {p : BnnnPolicy} {w : Word} :
    isUnknownWord p w = true ↔
      (fieldC w = 0x0 ∧ fieldKk w ≠ 0xE0 ∧ fieldKk w ≠ 0xEE) ∨
      (fieldC w = 0x8 ∧ fieldN w ∈ unknownLow8) ∨
      (fieldC w = 0xB ∧ p = .unrecognized) ∨
      (fieldC w = 0xE ∧ fieldKk w ≠ 0x9E ∧ fieldKk w ≠ 0xA1) ∨
      (fieldC w = 0xF ∧ fieldKk w ∉ knownLowF) := by
  unfold isUnknownWord
  split_ifs with h0 h8 hB hE hF
  · simp [h0]
  · simp [h8]
  · simp [hB]
  · simp [hE]
  · simp [hF]
  · simp only [h0, h8, hB, hE, hF, false_and, or_self]

theorem decodeWith_of_isUnknownWord {p : BnnnPolicy} {w : Word} (h : isUnknownWord p w = true) :
    decodeWith p w = .unknown w := by
  rcases isUnknownWord_iff.1 h with ⟨hc, h1, h2⟩ | ⟨hc, hn⟩ | ⟨hc, rfl⟩ | ⟨hc, h1, h2⟩ | ⟨hc, hk⟩
  · rw [decodeWith, hc]
    exact (if_neg h1).trans (if_neg h2)
  · simp only [unknownLow8, List.mem_cons, List.not_mem_nil, or_false] at hn
    rcases hn with hn | hn | hn | hn | hn | hn | hn <;> simp [decodeWith, hc, decodeClass8, hn]
  · simp [decodeWith, hc]
  · rw [decodeWith, hc]
    exact (if_neg h1).trans (if_neg h2)
  · simp only [knownLowF, List.mem_cons, List.not_mem_nil, or_false, not_or] at hk
    have hF : decodeClassF w = .unknown w := by simp only [decodeClassF, hk, if_false]
    rw [decodeWith, hc]
    exact hF

/-! ### Decoding after encoding -/

/-- Each row's word has the fields by which R81 selects the row, and the operands in their places. -/
theorem decodeWith_encode {p : BnnnPolicy} {i : Instr} (h : i.wellFormedWith p = true) : decodeWith p (encode i) = i := by
  cases i
  case unknown w => exact decodeWith_of_isUnknownWord h
  case jpV0 nnn =>
    obtain rfl : p = .jumpV0 := of_decide_eq_true h
    simp [encode, decodeWith]
  case cls | ret => simp [encode, decodeWith, decodeClass0]
  case ldReg | orReg | andReg | xorReg | addReg | sub | shr | subn | shl => simp [encode, decodeWith, decodeClass8]
  case skp | sknp => simp [encode, decodeWith, decodeClassE]
  case ldVDt | ldVK | ldDt | ldSt | addI | ldF | ldB | ldMemV | ldVMem => simp [encode, decodeWith, decodeClassF]
  all_goals simp [encode, decodeWith]

/-- Settles O1, by cases on the instruction. -/
theorem decodeOfEncodeIsTheInstruction : Obligations.DecodeOfEncodeIsTheInstruction := fun _ _ h => decodeWith_encode h

/-! ### Every word is the word of a well-formed instruction -/

section
variable {p : BnnnPolicy} {w : Word} {c n : Nibble} {kk : Byte}

theorem wordAddr_of_fields (hc : fieldC w = c) : wordAddr c (fieldNnn w) = w := by
  rw [← hc, wordAddr_fields]

theorem wordByte_of_fields (hc : fieldC w = c) (hk : fieldKk w = kk) : wordByte c (regNibble (fieldX w)) kk = w := by
  rw [← hc, ← hk, fieldX, regNibble_toFin, wordByte_fields]

theorem wordNibbles_of_fields (hc : fieldC w = c) (hn : fieldN w = n) :
    wordNibbles c (regNibble (fieldX w)) (regNibble (fieldY w)) n = w := by
  rw [← hc, ← hn, fieldX, fieldY, regNibble_toFin, regNibble_toFin, wordNibbles_fields]

/-- `w` is the word of a well-formed instruction. -/
def HasInstr (p : BnnnPolicy) (w : Word) : Prop := ∃ i : Instr, i.wellFormedWith p = true ∧ encode i = w

theorem hasInstr_of_isUnknownWord (h : isUnknownWord p w = true) : HasInstr p w := ⟨.unknown w, h, rfl⟩

theorem hasInstr_class0 (hc : fieldC w = 0x0) : HasInstr p w := by
  by_cases h1 : fieldKk w = 0xE0
  · exact ⟨.cls (nibbleX w), rfl, wordByte_of_fields hc h1⟩
  by_cases h2 : fieldKk w = 0xEE
  · exact ⟨.ret (nibbleX w), rfl, wordByte_of_fields hc h2⟩
  exact hasInstr_of_isUnknownWord (isUnknownWord_iff.2 (.inl ⟨hc, h1, h2⟩))

/-- The low nibbles that R78 does not list name the nine operations of class 8. -/
theorem knownLow8_cases : ∀ n : Nibble, n ∉ unknownLow8 →
    n = 0x0 ∨ n = 0x1 ∨ n = 0x2 ∨ n = 0x3 ∨ n = 0x4 ∨ n = 0x5 ∨ n = 0x6 ∨ n = 0x7 ∨ n = 0xE := by decide

theorem hasInstr_class8 (hc : fieldC w = 0x8) : HasInstr p w := by
  by_cases hu : fieldN w ∈ unknownLow8
  · exact hasInstr_of_isUnknownWord (isUnknownWord_iff.2 (.inr (.inl ⟨hc, hu⟩)))
  rcases knownLow8_cases _ hu with hn | hn | hn | hn | hn | hn | hn | hn | hn
  · exact ⟨.ldReg (fieldX w) (fieldY w), rfl, wordNibbles_of_fields hc hn⟩
  · exact ⟨.orReg (fieldX w) (fieldY w), rfl, wordNibbles_of_fields hc hn⟩
  · exact ⟨.andReg (fieldX w) (fieldY w), rfl, wordNibbles_of_fields hc hn⟩
  · exact ⟨.xorReg (fieldX w) (fieldY w), rfl, wordNibbles_of_fields hc hn⟩
  · exact ⟨.addReg (fieldX w) (fieldY w), rfl, wordNibbles_of_fields hc hn⟩
  · exact ⟨.sub (fieldX w) (fieldY w), rfl, wordNibbles_of_fields hc hn⟩
  · exact ⟨.shr (fieldX w) (fieldY w), rfl, wordNibbles_of_fields hc hn⟩
  · exact ⟨.subn (fieldX w) (fieldY w), rfl, wordNibbles_of_fields hc hn⟩
  · exact ⟨.shl (fieldX w) (fieldY w), rfl, wordNibbles_of_fields hc hn⟩

/-- Class 0xB is a jump or unknown, as `P_BNNN` says (R77). -/
theorem hasInstr_classB (hc : fieldC w = 0xB) : HasInstr p w := by
  cases p with
  | jumpV0 => exact ⟨.jpV0 (fieldNnn w), rfl, wordAddr_of_fields hc⟩
  | unrecognized => exact hasInstr_of_isUnknownWord (isUnknownWord_iff.2 (.inr (.inr (.inl ⟨hc, rfl⟩))))

theorem hasInstr_classE (hc : fieldC w = 0xE) : HasInstr p w := by
  by_cases h1 : fieldKk w = 0x9E
  · exact ⟨.skp (fieldX w), rfl, wordByte_of_fields hc h1⟩
  by_cases h2 : fieldKk w = 0xA1
  · exact ⟨.sknp (fieldX w), rfl, wordByte_of_fields hc h2⟩
  exact hasInstr_of_isUnknownWord (isUnknownWord_iff.2 (.inr (.inr (.inr (.inl ⟨hc, h1, h2⟩)))))

theorem hasInstr_classF (hc : fieldC w = 0xF) : HasInstr p w := by
  by_cases hk : fieldKk w ∈ knownLowF
  · simp only [knownLowF, List.mem_cons, List.not_mem_nil, or_false] at hk
    rcases hk with hk | hk | hk | hk | hk | hk | hk | hk | hk
    · exact ⟨.ldVDt (fieldX w), rfl, wordByte_of_fields hc hk⟩
    · exact ⟨.ldVK (fieldX w), rfl, wordByte_of_fields hc hk⟩
    · exact ⟨.ldDt (fieldX w), rfl, wordByte_of_fields hc hk⟩
    · exact ⟨.ldSt (fieldX w), rfl, wordByte_of_fields hc hk⟩
    · exact ⟨.addI (fieldX w), rfl, wordByte_of_fields hc hk⟩
    · exact ⟨.ldF (fieldX w), rfl, wordByte_of_fields hc hk⟩
    · exact ⟨.ldB (fieldX w), rfl, wordByte_of_fields hc hk⟩
    · exact ⟨.ldMemV (fieldX w), rfl, wordByte_of_fields hc hk⟩
    · exact ⟨.ldVMem (fieldX w), rfl, wordByte_of_fields hc hk⟩
  · exact hasInstr_of_isUnknownWord (isUnknownWord_iff.2 (.inr (.inr (.inr (.inr ⟨hc, hk⟩)))))

end

theorem nibble_cases : ∀ c : Nibble,
    c = 0x0 ∨ c = 0x1 ∨ c = 0x2 ∨ c = 0x3 ∨ c = 0x4 ∨ c = 0x5 ∨ c = 0x6 ∨ c = 0x7 ∨
    c = 0x8 ∨ c = 0x9 ∨ c = 0xA ∨ c = 0xB ∨ c = 0xC ∨ c = 0xD ∨ c = 0xE ∨ c = 0xF := by decide

theorem hasInstr (p : BnnnPolicy) (w : Word) : HasInstr p w := by
  rcases nibble_cases (fieldC w) with
    hc | hc | hc | hc | hc | hc | hc | hc | hc | hc | hc | hc | hc | hc | hc | hc
  · exact hasInstr_class0 hc
  · exact ⟨.jp (fieldNnn w), rfl, wordAddr_of_fields hc⟩
  · exact ⟨.call (fieldNnn w), rfl, wordAddr_of_fields hc⟩
  · exact ⟨.seImm (fieldX w) (fieldKk w), rfl, wordByte_of_fields hc rfl⟩
  · exact ⟨.sneImm (fieldX w) (fieldKk w), rfl, wordByte_of_fields hc rfl⟩
  · exact ⟨.seReg (fieldX w) (fieldY w) (fieldN w), rfl, wordNibbles_of_fields hc rfl⟩
  · exact ⟨.ldImm (fieldX w) (fieldKk w), rfl, wordByte_of_fields hc rfl⟩
  · exact ⟨.addImm (fieldX w) (fieldKk w), rfl, wordByte_of_fields hc rfl⟩
  · exact hasInstr_class8 hc
  · exact ⟨.sneReg (fieldX w) (fieldY w) (fieldN w), rfl, wordNibbles_of_fields hc rfl⟩
  · exact ⟨.ldI (fieldNnn w), rfl, wordAddr_of_fields hc⟩
  · exact hasInstr_classB hc
  · exact ⟨.rnd (fieldX w) (fieldKk w), rfl, wordByte_of_fields hc rfl⟩
  · exact ⟨.drw (fieldX w) (fieldY w) (fieldN w), rfl, wordNibbles_of_fields hc rfl⟩
  · exact hasInstr_classE hc
  · exact hasInstr_classF hc

/-- Settles O2: the word is that of a well-formed instruction, which decoding gives back. -/
theorem encodeOfDecodeIsTheWord : Obligations.EncodeOfDecodeIsTheWord := by
  intro p w
  obtain ⟨i, hi, rfl⟩ := hasInstr p w
  rw [decodeWith_encode hi]
  exact ⟨hi, rfl⟩

/-- What a word decodes to is well-formed, so where that is the unknown instruction the word is unknown. -/
theorem decodeWith_eq_unknown_iff {p : BnnnPolicy} {w : Word} : decodeWith p w = .unknown w ↔ isUnknownWord p w = true := by
  refine ⟨fun h => ?_, decodeWith_of_isUnknownWord⟩
  have hwf : (decodeWith p w).wellFormedWith p = true := (encodeOfDecodeIsTheWord p w).1
  rwa [h] at hwf

/-- Settles O3: the unknown words are those that decode to the unknown instruction. -/
theorem unknownWordsAreThoseListed : Obligations.UnknownWordsAreThoseListed :=
  fun _ _ => decodeWith_eq_unknown_iff.trans isUnknownWord_iff

/-- Settles O4, by running the decoder. -/
theorem writtenOutWordsDecode : Obligations.WrittenOutWordsDecode := by
  unfold Obligations.WrittenOutWordsDecode
  decide

end Sys2Proof

namespace Sys2Proof.Machine

/-! ### Every instruction completes (R79) -/

/-- No instruction ends in a fault of the model or a refusal: CALL and RET take their faults as next states (R252). -/
theorem exists_exec_eq_next (i : Instr) (s : State) : ∃ t, exec i s = .next t := by
  cases i
  case call nnn =>
    rcases execCall_cases nnn s with ⟨-, e⟩ | ⟨-, e⟩
    · exact ⟨_, e⟩
    · exact ⟨_, e⟩
  case ret z =>
    rcases execRet_cases z s with ⟨l, a, -, e⟩ | ⟨-, e⟩
    · exact ⟨_, e⟩
    · exact ⟨_, e⟩
  all_goals exact ⟨_, rfl⟩

/-- Settles O37: an instruction that is neither CALL nor RET keeps `M` or begins a wait. -/
theorem everyInstructionCompletes : Obligations.EveryInstructionCompletes := by
  intro i s
  obtain ⟨t, ht⟩ := exists_exec_eq_next i s
  refine ⟨t, ht, fun hcall hret => ?_⟩
  by_cases hm : t.mode = s.mode
  · left
    rw [State.isFaulted, State.isFaulted, hm]
  · right
    rcases exec_mode_cases ht hm with ⟨x, -, hx⟩ | ⟨⟨nnn, hi⟩ | ⟨z, hi⟩, -⟩
    · rw [State.isFaulted, hx]
    · exact absurd hi (hcall nnn)
    · exact absurd hi (hret z)

end Sys2Proof.Machine
end

section
/-! The Execution Engine (40_execution_engine.md): the key events, the time and the order of an `advance` call, its cycles and
ticks, and the host's reads. -/

namespace Sys2Proof.Machine

/-! ### Key events (R126 to R128) -/

/-- Both ways to press a key are served alike (R126, R128). -/
theorem serve_of_presses {c : HostCall} {k : Key} (s : State) (h : c.presses k) : s.serve c = .next (s.keyDown k) := by
  rcases h with rfl | ⟨symbol, rfl, hk⟩
  · rfl
  · simp only [State.serve, hk]

/-- Both ways to release a key are served alike (R127, R128). -/
theorem serve_of_releases {c : HostCall} {k : Key} (s : State) (h : c.releases k) : s.serve c = .next (s.keyUp k) := by
  rcases h with rfl | ⟨symbol, rfl, hk⟩
  · rfl
  · simp only [State.serve, hk]

/-- A host key without an entry in `P_KEYMAP` is served with no effect (R128). -/
theorem serve_of_unmapped {c : HostCall} {symbol : Nat} (s : State) (hk : Config.keymap symbol = none)
    (hc : c = .hostKeyDown symbol ∨ c = .hostKeyUp symbol) : s.serve c = .next s := by
  rcases hc with rfl | rfl
  · simp only [State.serve, hk]
  · simp only [State.serve, hk]

/-- The keypad after one key is set: that key and no other (R34). -/
theorem State.getKey_setKey (s : State) (j k : Key) (b : Bool) :
    (s.setKey k b).key[j] = if k = j then b else s.key[j] := by
  simp [Vector.getElem_set, Fin.ext_iff]

/-- Whatever `M` is, a key press sets its key in the keypad (R126). -/
theorem State.keyDown_key (s : State) (k : Key) : (s.keyDown k).key = (s.setKey k true).key := by
  rcases keyDown_cases s k with ⟨r, -, e⟩ | ⟨-, e⟩
  · rw [e]; rfl
  · rw [e]

/-- In a wait for `V[r]` a key press writes the key to `V[r]` and `M` becomes `Running` (R126). -/
theorem State.keyDown_of_awaitingKey {s : State} {r : Reg} (k : Key) (h : s.mode = .awaitingKey r) :
    s.keyDown k = ((s.setKey k true).setV r (BitVec.ofNat 8 k.val)).setMode .running := by
  rw [State.keyDown, h]

/-- Outside a wait a key press does nothing more than set its key (R126). -/
theorem State.keyDown_of_not_awaitingKey {s : State} (k : Key) (h : ∀ r, s.mode ≠ .awaitingKey r) :
    s.keyDown k = s.setKey k true := by
  rcases keyDown_cases s k with ⟨r, hr, -⟩ | ⟨-, e⟩
  · exact absurd hr (h r)
  · exact e

theorem toNat_ofNat_key (k : Key) : (BitVec.ofNat 8 k.val).toNat = k.val := by
  rw [BitVec.toNat_ofNat]
  omega

/-- Settles O33, by whether a wait is active. -/
theorem keyDownResolvesTheWait : Obligations.KeyDownResolvesTheWait := by
  intro c k rest s hsl hh hc
  refine ⟨(s.setHost rest).keyDown k, (step_of_call hsl hh).trans (serve_of_presses _ hc), ?_, ?_, ?_, ?_, ?_, ?_⟩
  · rw [State.keyDown_eq]; rfl
  · rw [State.keyDown_key, State.getKey_setKey, if_pos rfl]
  · intro j hj
    rw [State.keyDown_key, State.getKey_setKey, if_neg (Ne.symm hj)]
    rfl
  · intro r hr
    rw [State.keyDown_of_awaitingKey (s := s.setHost rest) k hr]
    refine ⟨?_, rfl, fun q hq => State.getV_setV_of_ne ((s.setHost rest).setKey k true) _ (Ne.symm hq)⟩
    exact (congrArg BitVec.toNat (State.getV_setV_self ((s.setHost rest).setKey k true) r _)).trans (toNat_ofNat_key k)
  · intro hr
    rw [State.keyDown_of_not_awaitingKey (s := s.setHost rest) k hr]
    exact ⟨rfl, rfl⟩
  · rw [State.keyDown_eq]; rfl

/-- Settles O34: a release is served as `keyUp`, an unmapped host key with no effect. -/
theorem keyUpOnlyReleasesTheKey : Obligations.KeyUpOnlyReleasesTheKey := by
  intro c rest s hsl hh
  refine ⟨fun k hc => ?_, fun symbol hk hc => (step_of_call hsl hh).trans (serve_of_unmapped _ hk hc)⟩
  refine ⟨(s.setHost rest).keyUp k, (step_of_call hsl hh).trans (serve_of_releases _ hc), rfl, ?_, ?_, rfl⟩
  · rw [State.keyUp, State.getKey_setKey, if_pos rfl]
  · intro j hj
    rw [State.keyUp, State.getKey_setKey, if_neg (Ne.symm hj)]
    rfl

/-! ### The time of an `advance` call (R123) -/

/-- Between calls, an `advance(d)` with `0 ≤ d` splits the elapsed time into the slots of the call and the rests (R123). -/
theorem step_of_advance {s : State} {d : Rat} {order : List Slot} {rest : List HostCall} (hsl : s.slots = none)
    (hh : s.host = .advance d order :: rest) (hd : 0 ≤ d) (hf : s.isFaulted = false) :
    step s = .next { s with
      host := rest, mayLoad := false, redraw := false
      cycleAcc := (splitTime Config.cyclePeriod (s.cycleAcc + d)).2
      timerAcc := (splitTime s.policies.timerPeriod (s.timerAcc + d)).2
      slots := some (interleave order (splitTime Config.cyclePeriod (s.cycleAcc + d)).1
        (splitTime s.policies.timerPeriod (s.timerAcc + d)).1) } := by
  have hserve : (s.setHost rest).serve (.advance d order) = .next ((s.setHost rest).beginAdvance d order) :=
    if_neg (not_lt.2 hd)
  rw [step_of_call hsl hh, hserve]
  rcases beginAdvance_cases (s.setHost rest) d order with ⟨hf', -⟩ | ⟨-, e⟩
  · cases hf'.symm.trans hf
  · rw [e]; rfl

/-- An `advance(d)` with `d < 0` has no move (R123). -/
theorem step_of_negative_advance {s : State} {d : Rat} {order : List Slot} {rest : List HostCall} (hsl : s.slots = none)
    (hh : s.host = .advance d order :: rest) (hd : d < 0) : step s = .refused .negativeDuration :=
  (step_of_call hsl hh).trans (if_pos hd)

/-- One period more, from less than a period, is one whole period. -/
theorem splitTime_add_period {period a : Rat} (h0 : 0 ≤ a) (h1 : a < period) : (splitTime period (a + period)).1 = 1 := by
  apply splitTime_count (h0.trans_lt h1)
  · push_cast; linarith
  · push_cast; linarith

/-- The cycles of a call and the cycle accumulator make up the time elapsed (R123). -/
theorem State.Inv.splitTime_cycles {s : State} {d : Rat} (h : s.Inv) (hd : 0 ≤ d) :
    ((splitTime Config.cyclePeriod (s.cycleAcc + d)).1 : Rat) * Config.cyclePeriod +
        (splitTime Config.cyclePeriod (s.cycleAcc + d)).2 = s.cycleAcc + d ∧
      0 ≤ (splitTime Config.cyclePeriod (s.cycleAcc + d)).2 ∧
      (splitTime Config.cyclePeriod (s.cycleAcc + d)).2 < Config.cyclePeriod :=
  splitTime_spec cyclePeriod_pos (add_nonneg h.cycleAcc_nonneg hd)

/-- The ticks of a call and the timer accumulator make up the time elapsed (R123). -/
theorem State.Inv.splitTime_ticks {s : State} {d : Rat} (h : s.Inv) (hd : 0 ≤ d) :
    ((splitTime s.policies.timerPeriod (s.timerAcc + d)).1 : Rat) * s.policies.timerPeriod +
        (splitTime s.policies.timerPeriod (s.timerAcc + d)).2 = s.timerAcc + d ∧
      0 ≤ (splitTime s.policies.timerPeriod (s.timerAcc + d)).2 ∧
      (splitTime s.policies.timerPeriod (s.timerAcc + d)).2 < s.policies.timerPeriod :=
  splitTime_spec s.timerPeriod_pos (add_nonneg h.timerAcc_nonneg hd)

/-! ### The order of the slots (R125) -/

/-- Whatever the order asked for, a call gets its cycles and its ticks, all of them and no more. -/
theorem count_interleave (order : List Slot) (nc nt : Nat) :
    (interleave order nc nt).count .cycle = nc ∧ (interleave order nc nt).count .tick = nt := by
  induction order, nc, nt using interleave.induct with
  | case1 nc nt => simp [interleave, List.count_replicate]
  | case2 order nt ih => exact ih
  | case3 order nc nt ih => simpa [interleave] using ih
  | case4 order nc ih => simpa [interleave] using ih
  | case5 order nc nt ih => simpa [interleave] using ih

/-- A list of slots is the interleaving that it asks for itself. -/
theorem interleave_count (l : List Slot) : interleave l (l.count .cycle) (l.count .tick) = l := by
  induction l with
  | nil => rfl
  | cons slot l ih =>
    cases slot with
    | cycle => simpa [interleave] using ih
    | tick => simpa [interleave] using ih

/-- Settles O42: the counts and rests of the two divisions, and the slots that realise the counts. -/
theorem advanceCountsWholePeriods : Obligations.AdvanceCountsWholePeriods := by
  intro d order rest s hsl hh
  refine ⟨step_of_negative_advance hsl hh, fun hinv hd hf => ⟨_, _, step_of_advance hsl hh hd hf, rfl, rfl, rfl, ?_⟩⟩
  obtain ⟨hcycles, hticks⟩ := count_interleave order (splitTime Config.cyclePeriod (s.cycleAcc + d)).1
    (splitTime s.policies.timerPeriod (s.timerAcc + d)).1
  obtain ⟨hc, hc0, hc1⟩ := hinv.splitTime_cycles hd
  obtain ⟨ht, ht0, ht1⟩ := hinv.splitTime_ticks hd
  rw [hcycles, hticks]
  refine ⟨hc, hc0, hc1, ht, ht0, ht1, ?_, rfl, rfl⟩
  rintro rfl
  exact splitTime_add_period hinv.timerAcc_nonneg hinv.timerAcc_lt

/-- Settles O43: an interleaving has the counts asked for, and a list with these counts is its own interleaving. -/
theorem everyInterleavingIsAdmitted : Obligations.EveryInterleavingIsAdmitted := by
  refine ⟨count_interleave, fun nc nt => by rw [interleave], fun d order rest s hinv hd hf hsl hh => ?_⟩
  obtain ⟨hc, hc0, hc1⟩ := hinv.splitTime_cycles hd
  obtain ⟨ht, ht0, ht1⟩ := hinv.splitTime_ticks hd
  refine ⟨_, _, _, step_of_advance hsl hh hd hf, rfl, hc, hc0, hc1, ht, ht0, ht1, fun l hcycles hticks => ?_⟩
  have hl := interleave_count l
  rw [hcycles, hticks] at hl
  rw [step_of_advance (s := { s with host := .advance d l :: rest }) hsl rfl hd hf]
  simp only [hl]

/-! ### The slots of an `advance` call, one equation each (R107, R122) -/

/-- A cycle of a wait is used up and changes nothing else (R107). -/
theorem step_of_awaiting_cycle {s : State} {rest : List Slot} {r : Reg} (hsl : s.slots = some (.cycle :: rest))
    (hm : s.mode = .awaitingKey r) : step s = .next (s.setSlots (some rest)) := by
  have hf : s.isFaulted = false := by rw [State.isFaulted, hm]
  rw [step_of_slot hsl hf, State.runSlot, State.cycle, State.setSlots_mode, hm]

/-- A `Running` cycle is the meaning of the word fetched, with `PC` moved on and the slot used up (R101 to R104, R107). -/
theorem step_of_running_cycle {s : State} {rest : List Slot} (hsl : s.slots = some (.cycle :: rest)) (hm : s.mode = .running) :
    step s = exec (decodeWith s.policies.bnnn s.fetchWord) { s with pc := s.pc + 2, slots := some rest } := by
  rw [step_of_slot hsl (isFaulted_of_running hm), State.runSlot, cycle_of_running (s := s.setSlots (some rest)) hm]
  rfl

/-- A tick slot is a timer tick. -/
theorem step_of_tick {s : State} {rest : List Slot} (hsl : s.slots = some (.tick :: rest)) (hf : s.isFaulted = false) :
    step s = .next (s.setSlots (some rest)).tick := step_of_slot hsl hf

/-! ### The redraw flag (R124) -/

/-- Only CLS and DRW may change the redraw flag (R124). -/
theorem footprint_redraw {i : Instr} {s : State} :
    (footprint i s).redraw = true ↔ (∃ z, i = .cls z) ∨ ∃ x y n, i = .drw x y n := by
  constructor
  · intro h
    cases i
    case cls z => exact .inl ⟨z, rfl⟩
    case drw x y n => exact .inr ⟨x, y, n, rfl⟩
    all_goals cases h
  · rintro (⟨z, rfl⟩ | ⟨x, y, n, rfl⟩)
    · rfl
    · rfl

/-- CLS and DRW raise the redraw flag, and no other instruction changes it (R124). -/
theorem exec_redraw {i : Instr} {s t : State} (h : exec i s = .next t) :
    t.redraw = true ↔ s.redraw = true ∨ (∃ z, i = .cls z) ∨ ∃ x y n, i = .drw x y n := by
  rw [← footprint_redraw (s := s)]
  cases hfoot : (footprint i s).redraw with
  | false => rw [(exec_keeps h).redraw hfoot]; simp
  | true =>
    have hraised : t.redraw = true := by
      rcases footprint_redraw.1 hfoot with ⟨z, rfl⟩ | ⟨x, y, n, rfl⟩ <;> cases h <;> rfl
    simp [hraised]

theorem fetches_iff_of_running {s : State} {i : Instr} (h : s.mode = .running) :
    s.fetches i ↔ decodeWith s.policies.bnnn s.fetchWord = i := by
  rw [State.fetches, and_iff_right h]

/-- Settles O44: the flag goes up in a cycle that runs CLS or DRW, and in no other slot. -/
theorem advanceReturnsTheRedrawFlag : Obligations.AdvanceReturnsTheRedrawFlag := by
  intro l s hsl
  refine ⟨step_of_end hsl, fun hl hf => ?_⟩
  cases l with
  | nil => exact absurd rfl hl
  | cons slot rest =>
    cases slot with
    | tick => exact ⟨_, step_of_tick hsl hf, rfl, by simp [State.tick]⟩
    | cycle =>
      cases hm : s.mode with
      | running =>
        obtain ⟨t, ht⟩ := exists_exec_eq_next (decodeWith s.policies.bnnn s.fetchWord)
          { s with pc := s.pc + 2, slots := some rest }
        refine ⟨t, (step_of_running_cycle hsl hm).trans ht, (exec_keeps ht).slots, ?_⟩
        simp only [exec_redraw ht, fetches_iff_of_running hm, List.head?_cons, true_and]
      | awaitingKey r => exact ⟨_, step_of_awaiting_cycle hsl hm, rfl, by simp [State.fetches, hm]⟩
      | faulted f => simp [State.isFaulted, hm] at hf

/-! ### What a cycle runs and what a tick counts (R101 to R107, R122) -/

theorem toNat_tickDown (b : Byte) : (tickDown b).toNat = b.toNat - 1 := by
  unfold tickDown
  split
  · next h => simp [h]
  · next h => bv_omega

/-- Settles O35: a tick counts each timer down by itself. -/
theorem tickCountsTheTimersDown : Obligations.TickCountsTheTimersDown :=
  fun _ s hsl hf => ⟨_, step_of_tick hsl hf, toNat_tickDown s.dt, toNat_tickDown s.st, rfl, rfl⟩

/-- Settles O36: the event is emitted, and emitting changes the outputs alone. -/
theorem unknownWordIsReportedAndSkipped : Obligations.UnknownWordIsReportedAndSkipped :=
  fun w s => ⟨s.emit (.unknownOpcode s.pcFetch w), rfl, rfl, keeps_emit s _⟩

/-- Settles O38, by `M`. -/
theorem stepRunsTheDecodedInstruction : Obligations.StepRunsTheDecodedInstruction := by
  intro rest s hsl
  refine ⟨fun i hm _ hdec => ?_, fun r hm => step_of_awaiting_cycle hsl hm⟩
  have hi : decodeWith s.policies.bnnn s.fetchWord = i := by
    injection hdec with hpair
    exact congrArg Prod.fst hpair
  rw [step_of_running_cycle hsl hm, hi]

/-- The decoder of table words reads the word's own two bytes back (R55). -/
theorem decodeTableWord_eq (nbits w : Nat) : decodeTableWord nbits w = some (decodeWith Params.bnnn (tableWord nbits w)) := by
  simp only [decodeTableWord, decodeBytes, decodeBytesWith, wordOfBytes_bytes]

/-- Settles O39: the placed word is the word fetched, in a `Running` machine with one cycle left. -/
theorem placedWordIsRunNext : Obligations.PlacedWordIsRunNext := by
  refine fun nbits w s => ⟨decodeTableWord_eq nbits w, ?_⟩
  have hfetch : (s.withFetchWord nbits w).fetchWord = tableWord nbits w := fetchWord_placeWord s _
  rw [step_of_running_cycle (s := s.withFetchWord nbits w) (rest := []) rfl rfl, hfetch]
  rfl

/-! ### The host's reads (R130, R131) -/

/-- Settles O50: each read is served by emitting its view. -/
theorem hostReadsChangeNothing : Obligations.HostReadsChangeNothing := by
  intro rest s hsl
  refine ⟨fun hh => (step_of_call hsl hh).trans rfl, fun hh => ?_⟩
  exact ⟨s.snapshot, (step_of_call hsl hh).trans rfl, rfl, rfl, rfl, rfl, rfl, rfl, rfl, rfl⟩

end Sys2Proof.Machine
end

section
/-! Control transfer (41_control_flow.md): the call stack and its two faults, the jumps and the skips. The word of each
instruction decodes to it by `decodeWith_encode`. -/

namespace Sys2Proof.Machine

/-! ### CALL and RET, one equation per outcome (R141, R143) -/

theorem exec_call_of_lt {s : State} (nnn : Addr12) (h : s.stack.length < 16) :
    exec (.call nnn) s = .next ((s.setStack (s.stack ++ [s.pc])).setPc (addrWord nnn)) := by
  rcases execCall_cases nnn s with ⟨-, e⟩ | ⟨hfull, -⟩
  · exact e
  · omega

theorem exec_call_of_full {s : State} (nnn : Addr12) (h : 16 ≤ s.stack.length) :
    exec (.call nnn) s = .next (s.raiseFault .stackOverflow (wordAddr 0x2 nnn)) := by
  rcases execCall_cases nnn s with ⟨hlt, -⟩ | ⟨-, e⟩
  · omega
  · exact e

theorem exec_ret_of_append {s : State} {l : List Word} {a : Word} (z : Nibble) (h : s.stack = l ++ [a]) :
    exec (.ret z) s = .next ((s.setStack l).setPc a) := by
  rcases execRet_cases z s with ⟨l', a', hs, e⟩ | ⟨hnil, -⟩
  · obtain ⟨rfl, ha⟩ := List.append_inj' (h.symm.trans hs) rfl
    cases ha
    exact e
  · simp [h] at hnil

theorem exec_ret_of_nil {s : State} (z : Nibble) (h : s.stack = []) :
    exec (.ret z) s = .next (s.raiseFault .stackUnderflow (wordByte 0x0 z 0xEE)) := by
  rcases execRet_cases z s with ⟨l, a, hs, -⟩ | ⟨-, e⟩
  · simp [h] at hs
  · exact e

/-! ### What a transfer leaves in `PC` (R140, R142, R144) -/

@[simp] theorem toNat_addrWord (nnn : Addr12) : (addrWord nnn).toNat = nnn.toNat :=
  BitVec.toNat_setWidth_of_le (by decide)

/-- The sum of an address field and a byte fits 16 bits (R144). -/
theorem toNat_addrWord_add_byteWord (nnn : Addr12) (b : Byte) :
    (addrWord nnn + byteWord b).toNat = nnn.toNat + b.toNat := by
  have hbyte : (byteWord b).toNat = b.toNat := BitVec.toNat_setWidth_of_le (by decide)
  have := nnn.isLt
  have := b.isLt
  rw [BitVec.toNat_add, toNat_addrWord, hbyte]
  omega

/-- A skip is taken exactly when its test holds (R140). -/
theorem toNat_skipIf_pc (s : State) (p : Prop) [Decidable p] :
    (s.skipIf (decide p)).pc.toNat = if p then (s.pc.toNat + 2) % 0x10000 else s.pc.toNat := by
  by_cases h : p
  · simp [State.skipIf, h]
  · simp [State.skipIf, h]

theorem toNat_skipIf_not_pc (s : State) (p : Prop) [Decidable p] :
    (s.skipIf (decide ¬p)).pc.toNat = if p then s.pc.toNat else (s.pc.toNat + 2) % 0x10000 := by
  rw [toNat_skipIf_pc, ite_not]

/-! ### CALL followed at once by RET (R149) -/

/-- A cycle that fetches `i` runs `i`, with `PC` moved on and the slot used up (R102 to R104). -/
theorem step_of_fetches {s : State} {i : Instr} {rest : List Slot} (hsl : s.slots = some (.cycle :: rest)) (h : s.fetches i) :
    step s = exec i { s with pc := s.pc + 2, slots := some rest } := by
  obtain ⟨hm, hi⟩ := h
  rw [step_of_running_cycle hsl hm, hi]

/-- Settles O8: RET finds the entry that CALL pushed, and takes it off the stack that CALL found. -/
theorem callThenReturnComesBack : Obligations.CallThenReturnComesBack := by
  intro nnn z rest s t hsl hcall hlen hst hret
  have hpush : step s = .next _ := (step_of_fetches hsl hcall).trans (exec_call_of_lt nnn hlen)
  cases hst.symm.trans hpush
  have hpop : step _ = .next _ := (step_of_fetches rfl hret).trans (exec_ret_of_append z rfl)
  exact ⟨_, hpop, rfl, rfl, rfl, keeps_setPc { s with slots := some rest } (s.pc + 2)⟩

/-! ### CALL and RET alone -/

/-- Settles O5, by the equation of CALL below the full depth. -/
theorem callPushesTheReturnAddress : Obligations.CallPushesTheReturnAddress :=
  fun nnn s hlen => ⟨decodeWith_encode (i := .call nnn) rfl, _, exec_call_of_lt nnn hlen, rfl, toNat_addrWord nnn,
    keeps_setStack_setPc s _ _⟩

/-- Settles O6, by the equation of RET on a stack with an entry. -/
theorem returnPopsIntoPc : Obligations.ReturnPopsIntoPc :=
  fun z a l s hs => ⟨decodeWith_encode (i := .ret z) rfl, _, exec_ret_of_append z hs, rfl, rfl, keeps_setStack_setPc s l a⟩

/-- Settles O7, by the equations of CALL on a full stack and RET on an empty one: raising a fault sets `M` alone. -/
theorem stackMisuseFaults : Obligations.StackMisuseFaults :=
  fun nnn z s => ⟨rfl, rfl, fun hfull => ⟨_, exec_call_of_full nnn hfull.ge, rfl, keeps_setMode s _⟩,
    fun hnil => ⟨_, exec_ret_of_nil z hnil, rfl, keeps_setMode s _⟩⟩

/-! ### Jumps and skips -/

/-- Settles O9: both jumps set `PC` alone; `Bnnn` is in the class of unknown words only under `unrecognized`. -/
theorem jumpsLoadPc : Obligations.JumpsLoadPc := by
  intro nnn s
  have hunknown : isUnknownWord .unrecognized (wordAddr 0xB nnn) = true :=
    isUnknownWord_iff.2 (.inr (.inr (.inl ⟨fieldC_wordAddr 0xB nnn, rfl⟩)))
  exact ⟨decodeWith_encode (i := .jp nnn) rfl, decodeWith_encode (i := .jpV0 nnn) rfl, decodeWith_of_isUnknownWord hunknown,
    ⟨_, rfl, toNat_addrWord nnn, keeps_setPc s _⟩, ⟨_, rfl, toNat_addrWord_add_byteWord nnn _, keeps_setPc s _⟩⟩

/-- Settles O10: the two skips are the skip helper under opposite tests. -/
theorem skipOnAConstant : Obligations.SkipOnAConstant :=
  fun x kk s => ⟨decodeWith_encode (i := .seImm x kk) rfl, decodeWith_encode (i := .sneImm x kk) rfl,
    ⟨_, rfl, toNat_skipIf_pc s _, keeps_skipIf s _⟩, ⟨_, rfl, toNat_skipIf_not_pc s _, keeps_skipIf s _⟩⟩

/-- Settles O11: the two skips are the skip helper under opposite tests. -/
theorem skipOnRegisters : Obligations.SkipOnRegisters :=
  fun x y z s => ⟨decodeWith_encode (i := .seReg x y z) rfl, decodeWith_encode (i := .sneReg x y z) rfl,
    ⟨_, rfl, toNat_skipIf_pc s _, keeps_skipIf s _⟩, ⟨_, rfl, toNat_skipIf_not_pc s _, keeps_skipIf s _⟩⟩

end Sys2Proof.Machine
end

section
/-! Register arithmetic, logic, shifts and random (42_alu.md): each instruction writes `V[x]` alone (`keeps_setV`) or a result and
then a flag (`keeps_setResultFlag`), and the flag computations are those of R168 to R174. The word of each instruction decodes to
it by `decodeWith_encode`. -/

namespace Sys2Proof.Machine

/-! ### Results without a flag (R162 to R167, R176) -/

/-- Settles O12: each writes its result to `V[x]`, and the bits of a bitwise result are the operation on the operands' bits. -/
theorem loadsAndBitwiseOperations : Obligations.LoadsAndBitwiseOperations := by
  intro x y kk s
  refine ⟨decodeWith_encode (i := .ldImm x kk) rfl, decodeWith_encode (i := .ldReg x y) rfl,
    decodeWith_encode (i := .orReg x y) rfl, decodeWith_encode (i := .andReg x y) rfl,
    decodeWith_encode (i := .xorReg x y) rfl, ⟨_, rfl, s.getV_setV_self x _, keeps_setV s x _⟩,
    ⟨_, rfl, s.getV_setV_self x _, keeps_setV s x _⟩, ⟨_, rfl, fun b _ => ?or, keeps_setV s x _⟩,
    ⟨_, rfl, fun b _ => ?and, keeps_setV s x _⟩, ⟨_, rfl, fun b _ => ?xor, keeps_setV s x _⟩⟩
  case or => rw [State.getV_setV_self, BitVec.getLsbD_or]
  case and => rw [State.getV_setV_self, BitVec.getLsbD_and]
  case xor => rw [State.getV_setV_self, BitVec.getLsbD_xor, Bool.bne_eq_xor]

/-- Settles O13: the sum of bytes is the sum modulo 256, and only `V[x]` is written. -/
theorem addConstantWrapsWithoutCarry : Obligations.AddConstantWrapsWithoutCarry := by
  refine fun x kk s => ⟨decodeWith_encode (i := .addImm x kk) rfl, _, rfl, ?_, keeps_setV s x _⟩
  rw [State.getV_setV_self, BitVec.toNat_add]

/-- Counting a draw leaves the registers as they are. -/
@[simp] theorem State.getV_countDraw (s : State) (r : Reg) : s.countDraw.getV r = s.getV r := rfl

/-- Settles O18: the byte of this draw is masked, then the draw is counted. -/
theorem randomByteIsMasked : Obligations.RandomByteIsMasked := by
  refine fun x kk s => ⟨decodeWith_encode (i := .rnd x kk) rfl, _, rfl, fun b _ => ?_, rfl, keeps_setV_countDraw s x _⟩
  rw [State.getV_countDraw, State.getV_setV_self, BitVec.getLsbD_and, State.randomByte]

/-! ### A result and then its flag (R161, R168 to R174) -/

/-- The number in the destination of a flag instruction, unless the flag written after it is there (R161). -/
theorem State.toNat_getV_setResultFlag (s : State) {x : Reg} (a b : Byte) (h : x ≠ VF) :
    ((s.setResultFlag x a b).getV x).toNat = a.toNat := by
  rw [State.getV_setResultFlag s a b h]

/-- Settles O14, by the low byte and the carry of the 9-bit sum. -/
theorem addRegistersSetsTheCarry : Obligations.AddRegistersSetsTheCarry :=
  fun x y s => ⟨decodeWith_encode (i := .addReg x y) rfl, _, rfl,
    fun hx => (s.toNat_getV_setResultFlag _ _ hx).trans (toNat_addCarry _ _),
    (s.getV_setResultFlag_VF x _ _).trans (addCarry_flag _ _), keeps_setResultFlag s x _ _⟩

/-- Settles O15: SUB and SUBN are `subFlag` of the two operands, in opposite orders. -/
theorem subtractBothWays : Obligations.SubtractBothWays :=
  fun x y s => ⟨decodeWith_encode (i := .sub x y) rfl, decodeWith_encode (i := .subn x y) rfl,
    ⟨_, rfl, fun hx => (s.toNat_getV_setResultFlag _ _ hx).trans (toNat_subFlag _ _ _),
      (s.getV_setResultFlag_VF x _ _).trans (subFlag_flag _ _ _), keeps_setResultFlag s x _ _⟩,
    ⟨_, rfl, fun hx => (s.toNat_getV_setResultFlag _ _ hx).trans (toNat_subFlag _ _ _),
      (s.getV_setResultFlag_VF x _ _).trans (subFlag_flag _ _ _), keeps_setResultFlag s x _ _⟩⟩

/-- Settles O17, by the value shifted and the bit shifted out. -/
theorem shiftsByOne : Obligations.ShiftsByOne :=
  fun x y s => ⟨decodeWith_encode (i := .shr x y) rfl, decodeWith_encode (i := .shl x y) rfl,
    ⟨_, rfl, fun hx => (s.toNat_getV_setResultFlag _ _ hx).trans (toNat_shiftRight _),
      (congrArg BitVec.toNat (s.getV_setResultFlag_VF x _ _)).trans (toNat_shiftRight_flag _), keeps_setResultFlag s x _ _⟩,
    ⟨_, rfl, fun hx => (s.toNat_getV_setResultFlag _ _ hx).trans (toNat_shiftLeft _),
      (congrArg BitVec.toNat (s.getV_setResultFlag_VF x _ _)).trans (toNat_shiftLeft_flag _), keeps_setResultFlag s x _ _⟩⟩

/-! ### The two values of `P_SUB_WRAP` (R169) -/

/-- Without a borrow the policy is not consulted. -/
theorem subFlag_of_le (p : SubWrap) {lhs rhs : Byte} (h : rhs.toNat ≤ lhs.toNat) :
    subFlag p lhs rhs = (BitVec.ofNat 8 (lhs.toNat - rhs.toNat), 1) := if_pos h

/-- With a borrow of `d` the two results are `0xFF - d` and `0x100 - d`. -/
theorem toNat_subFlag_observed_add_one {lhs rhs : Byte} (h : lhs.toNat < rhs.toNat) :
    (subFlag .observed lhs rhs).1.toNat + 1 = (subFlag .modular lhs rhs).1.toNat := by
  have hd : rhs.toNat - lhs.toNat ≤ 0xFF := (Nat.sub_le _ _).trans (Nat.le_of_lt_succ rhs.isLt)
  rw [toNat_subFlag, toNat_subFlag, if_neg h.not_ge, if_neg h.not_ge, if_pos rfl, if_neg (by decide)]
  omega

theorem subFlag_flag_of_lt (p : SubWrap) {lhs rhs : Byte} (h : lhs.toNat < rhs.toNat) : (subFlag p lhs rhs).2 = 0 := by
  rw [subFlag_flag, if_neg h.not_ge]

/-- Settles O16, by whether the subtraction borrows. -/
theorem subtractPoliciesDifferByOne : Obligations.SubtractPoliciesDifferByOne := by
  refine fun lhs rhs => ⟨fun h => ?_, fun h => ?_⟩
  · rw [subFlag_of_le .observed h, subFlag_of_le .modular h]
    exact ⟨rfl, rfl⟩
  · exact ⟨toNat_subFlag_observed_add_one h, subFlag_flag_of_lt .observed h, subFlag_flag_of_lt .modular h⟩

end Sys2Proof.Machine
end

section
/-! The index register and memory transfers (43_index_memory.md): LD I, ADD I and LD F set `I` alone (`keeps_setI`); LD B and the
register dump are a sequence of writes from `I` up (`readMem_writeBytes`, `keeps_writeBytes`), and the register load is
`loadRegs`. The word of each instruction decodes to it by `decodeWith_encode`. -/

namespace Sys2Proof.Machine

/-! ### Setting `I` (R190 to R192) -/

@[simp] theorem toNat_byteWord (b : Byte) : (byteWord b).toNat = b.toNat := BitVec.toNat_setWidth_of_le (by decide)

/-- The glyph of a digit begins at 5 times the digit, which fits 16 bits. -/
theorem toNat_glyphAddr (b : Byte) : (glyphAddr b).toNat = 5 * (b.toNat % 16) :=
  (BitVec.toNat_ofNat _ 16).trans (Nat.mod_eq_of_lt (by omega))

/-- Settles O20: both set `I` alone, to the address field and to the sum modulo 0x10000. -/
theorem indexLoadAndAdd : Obligations.IndexLoadAndAdd := by
  refine fun nnn x s => ⟨decodeWith_encode (i := .ldI nnn) rfl, decodeWith_encode (i := .addI x) rfl,
    ⟨_, rfl, toNat_addrWord nnn, keeps_setI s _⟩, ⟨_, rfl, ?_, keeps_setI s _⟩⟩
  rw [State.setI_i, BitVec.toNat_add, toNat_byteWord]

/-- Settles O21: the last glyph, that of the digit F, begins at 0x04B. -/
theorem glyphAddressOfLowNibble : Obligations.GlyphAddressOfLowNibble := by
  refine fun x s => ⟨decodeWith_encode (i := .ldF x) rfl, _, rfl, toNat_glyphAddr _, ?_, keeps_setI s _⟩
  rw [State.setI_i, toNat_glyphAddr]
  omega

/-! ### Decimal digits (R193) -/

/-- Each digit fits a byte. -/
theorem toNat_decimalDigits (b : Byte) :
    (decimalDigits b).map BitVec.toNat = [b.toNat / 100, b.toNat / 10 % 10, b.toNat % 10] := by
  have := b.isLt
  simp only [decimalDigits, List.map_cons, List.map_nil, BitVec.toNat_ofNat, List.cons.injEq, and_true]
  omega

/-- The three digits stored from `a` up read back as numbers, each at its own address. -/
theorem State.toNat_readMem_writeBytes_decimalDigits (s : State) (a : Nat) (b : Byte) {k : Nat} (hk : k < 3) :
    ((s.writeBytes a (decimalDigits b)).readMem (a + k)).toNat =
      [b.toNat / 100, b.toNat / 10 % 10, b.toNat % 10][k] := by
  have hlen : (decimalDigits b).length = 3 := rfl
  rw [s.readMem_writeBytes a k _ (hlen ▸ hk) (by omega)]
  simp only [← toNat_decimalDigits, List.getElem_map]

/-- Settles O22: the digits read back from the three addresses they were written to. -/
theorem bcdStoresThreeDigits : Obligations.BcdStoresThreeDigits :=
  fun x s => ⟨decodeWith_encode (i := .ldB x) rfl, _, rfl,
    s.toNat_readMem_writeBytes_decimalDigits s.i.toNat (s.getV x) (k := 0) (by decide),
    s.toNat_readMem_writeBytes_decimalDigits s.i.toNat (s.getV x) (k := 1) (by decide),
    s.toNat_readMem_writeBytes_decimalDigits s.i.toNat (s.getV x) (k := 2) (by decide),
    keeps_writeBytes s s.i.toNat (decimalDigits (s.getV x))⟩

/-! ### Register dump and load (R194 to R196) -/

/-- A dump from `a` up writes at most 16 bytes, so none of them overwrites another. -/
theorem State.readMem_writeBytes_regsUpTo (s : State) (a : Nat) {x r : Reg} (h : r ≤ x) :
    (s.writeBytes a (s.regsUpTo x)).readMem (a + r.val) = s.getV r := by
  have hlen : (s.regsUpTo x).length = x.val + 1 := s.length_regsUpTo x
  have hr : r.val < (s.regsUpTo x).length := hlen ▸ Nat.lt_succ_of_le h
  rw [s.readMem_writeBytes a r.val (s.regsUpTo x) hr (by omega), s.getElem_regsUpTo h]

/-- Settles O23: each register of the dump reads back from its own address, and `I` is set after the writes. -/
theorem registerDumpStoresInOrder : Obligations.RegisterDumpStoresInOrder := by
  refine fun x s => ⟨decodeWith_encode (i := .ldMemV x) rfl, _, rfl,
    fun r hr => s.readMem_writeBytes_regsUpTo s.i.toNat hr, toNat_advancedIndex _ s.i x, ?_⟩
  rw [← s.length_regsUpTo x]
  exact keeps_writeBytes_setI s s.i.toNat (s.regsUpTo x) _

/-- Settles O24: a register up to `x` comes from memory, one above it is as before, and `I` is set after the load. -/
theorem registerLoadReadsInOrder : Obligations.RegisterLoadReadsInOrder :=
  fun x s => ⟨decodeWith_encode (i := .ldVMem x) rfl, _, rfl,
    fun r hr => (s.getV_loadRegs x r).trans (if_pos hr), fun r hr => (s.getV_loadRegs x r).trans (if_neg hr.not_ge),
    toNat_advancedIndex _ s.i x, keeps_loadRegs_setI s x _⟩

end Sys2Proof.Machine
end

section
/-! The display (44_display.md): what CLS and DRW leave in the pixels and in VF, two equal draws one after the other, and which
steps change the display. A draw is the sprite bits of `spriteBitOver` XORed in (`drawRows_spec`). The word of each instruction
decodes to it by `decodeWith_encode`. -/

namespace Sys2Proof.Machine

/-! ### CLS (R210) -/

@[simp] theorem Display.get_blank (X : Fin 64) (Y : Fin 32) : Display.blank.get X Y = false := by
  simp [Display.get, Display.blank]

/-- Settles O25: the display becomes the blank one. -/
theorem clearScreenBlanksEveryPixel : Obligations.ClearScreenBlanksEveryPixel :=
  fun z s => ⟨decodeWith_encode (i := .cls z) rfl, _, rfl, Display.get_blank, rfl, keeps_clear s Display.blank⟩

/-! ### One draw (R211, R212) -/

theorem collides_iff {p : CollisionTest} {old bit : Bool} :
    collides p old bit = true ↔ old = true ∧ (bit = true ∨ p = .allBits) := by
  simp [collides]

section
variable {x y : Reg} {n : Nibble} {s t u : State}

/-- A draw collides by R211 exactly if at some pixel the sprite bit over it and the lit pixel count as a collision. -/
theorem drawCollides_iff {p : CollisionTest} :
    drawCollides p s x y n ↔
      ∃ X Y bit, spriteBitOver s x y n X Y = some bit ∧ collides p (s.disp.get X Y) bit = true := by
  simp only [drawCollides, collides_iff]
  refine exists_congr fun X => exists_congr fun Y => ?_
  constructor
  · rintro ⟨hlit, hb | ⟨hp, hb⟩⟩
    · exact ⟨true, hb, hlit, .inl rfl⟩
    · exact ⟨false, hb, hlit, .inr hp⟩
  · rintro ⟨bit, hb, hlit, rfl | hp⟩
    · exact ⟨hlit, .inl hb⟩
    · cases bit with
      | true => exact ⟨hlit, .inl hb⟩
      | false => exact ⟨hlit, .inr ⟨hp, hb⟩⟩

/-- The display after a draw: each pixel is XORed with the sprite bit over it (R212). -/
theorem get_disp_of_drw (h : exec (.drw x y n) s = .next t) (X : Fin 64) (Y : Fin 32) :
    t.disp.get X Y = (s.disp.get X Y ^^ (spriteBitOver s x y n X Y).getD false) := by
  cases h
  rw [← rowsBitOver_spriteBytes]
  exact (drawRows_spec _ _ _ _ (s.disp, false) (State.length_spriteBytes _ n)).1 X Y

/-- The collision gathered by the draw is that of R211. -/
theorem drawSprite_collision_iff :
    ((s.setV VF 0).drawSprite x y n).2 = true ↔ drawCollides s.policies.collision s x y n := by
  rw [State.drawSprite, (drawRows_spec _ _ _ _ _ (State.length_spriteBytes _ n)).2, drawCollides_iff]
  simp only [rowsBitOver_spriteBytes, Bool.false_eq_true, false_or, State.setV_policies, State.setV_disp]

/-- VF after a draw: 1 on a collision and 0 otherwise (R211, R212). -/
theorem getV_VF_of_drw_cases (h : exec (.drw x y n) s = .next t) :
    (drawCollides s.policies.collision s x y n ∧ t.getV VF = 1) ∨
    (¬ drawCollides s.policies.collision s x y n ∧ t.getV VF = 0) := by
  cases h
  have hVF := State.getV_setV_self ((s.setV VF 0).setDisp ((s.setV VF 0).drawSprite x y n).1) VF
    (if ((s.setV VF 0).drawSprite x y n).2 then 1 else 0)
  by_cases hc : ((s.setV VF 0).drawSprite x y n).2 = true
  · exact .inl ⟨drawSprite_collision_iff.1 hc, hVF.trans (if_pos hc)⟩
  · exact .inr ⟨fun h => hc (drawSprite_collision_iff.2 h), hVF.trans (if_neg hc)⟩

theorem getV_VF_eq_one_iff_of_drw (h : exec (.drw x y n) s = .next t) :
    t.getV VF = 1 ↔ drawCollides s.policies.collision s x y n := by
  rcases getV_VF_of_drw_cases h with ⟨hc, e⟩ | ⟨hc, e⟩
  · simp [hc, e]
  · simp [hc, e]

theorem getV_VF_eq_zero_iff_of_drw (h : exec (.drw x y n) s = .next t) :
    t.getV VF = 0 ↔ ¬ drawCollides s.policies.collision s x y n := by
  rcases getV_VF_of_drw_cases h with ⟨hc, e⟩ | ⟨hc, e⟩
  · simp [hc, e]
  · simp [hc, e]

/-! ### Two equal draws (R214) -/

/-- A coordinate does not depend on VF (R212). -/
theorem spriteCoord_congr {r : Reg} (h : r ≠ VF → t.getV r = s.getV r) : spriteCoord t r = spriteCoord s r := by
  by_cases hr : r = VF
  · rw [spriteCoord, spriteCoord, if_pos hr, if_pos hr]
  · rw [spriteCoord, spriteCoord, if_neg hr, if_neg hr, h hr]

/-- A draw changes nothing that places the sprite or that holds its bytes: the same draw again lays the same bits. -/
theorem spriteBitOver_of_drw (h : exec (.drw x y n) s = .next t) (X : Fin 64) (Y : Fin 32) :
    spriteBitOver t x y n X Y = spriteBitOver s x y n X Y := by
  have hk : Keeps { regs := [VF], disp := true, redraw := true } s t := exec_keeps h
  have hmem : ∀ a, t.readMem a = s.readMem a := fun a => hk.memory a List.not_mem_nil
  have hcoord : ∀ r, spriteCoord t r = spriteCoord s r := fun r => spriteCoord_congr fun hr => hk.regs r (by simpa using hr)
  simp only [spriteBitOver, hcoord, hk.i rfl, hmem]

/-- The second of two equal draws collides where the first one lit a pixel, or under `all_bits` where it left one lit. -/
theorem drawCollides_after_drw_iff {p : CollisionTest} (h : exec (.drw x y n) s = .next t) :
    drawCollides p t x y n ↔
      ∃ X Y, (spriteBitOver s x y n X Y = some true ∧ s.disp.get X Y = false) ∨
        (p = .allBits ∧ spriteBitOver s x y n X Y = some false ∧ s.disp.get X Y = true) := by
  unfold drawCollides
  refine exists_congr fun X => exists_congr fun Y => ?_
  rw [spriteBitOver_of_drw h, get_disp_of_drw h]
  cases spriteBitOver s x y n X Y with
  | none => simp
  | some bit => cases bit <;> simp [and_comm]

/-- No bit of a sprite whose bytes are all zero is 1. -/
theorem spriteBitOver_ne_some_true (hzero : ∀ row < n.toNat, s.readMem (s.i.toNat + row) = 0) (X : Fin 64) (Y : Fin 32) :
    spriteBitOver s x y n X Y ≠ some true := by
  intro hb
  simp only [spriteBitOver] at hb
  split at hb
  · next hin => simp [hzero _ hin.2] at hb
  · cases hb

/-- The second of two equal draws of an all-zero sprite collides only under `all_bits`, on the lit pixels of its region. -/
theorem drawCollides_after_zero_drw_iff {p : CollisionTest} (h : exec (.drw x y n) s = .next t)
    (hzero : ∀ row < n.toNat, s.readMem (s.i.toNat + row) = 0) :
    drawCollides p t x y n ↔
      p = .allBits ∧ ∃ X Y, spriteBitOver s x y n X Y = some false ∧ s.disp.get X Y = true := by
  simp only [drawCollides_after_drw_iff h, spriteBitOver_ne_some_true hzero, false_and, false_or, exists_and_left]

end

/-- Settles O26, by the pixels and the collision of one draw. -/
theorem drawXorsTheSprite : Obligations.DrawXorsTheSprite := by
  intro x y n s
  obtain ⟨t, h⟩ := exists_exec_eq_next (.drw x y n) s
  refine ⟨decodeWith_encode (i := .drw x y n) rfl, t, h, fun X Y => ?_, (getV_VF_eq_one_iff_of_drw h).2,
    (getV_VF_eq_zero_iff_of_drw h).2, (exec_redraw h).2 (.inr (.inr ⟨x, y, n, rfl⟩)), exec_keeps h⟩
  rw [get_disp_of_drw h, Bool.bne_eq_xor]

/-- Settles O27: the second draw lays the same bits as the first, and XORed twice they leave each pixel as it was. -/
theorem drawingTwiceRestoresTheDisplay : Obligations.DrawingTwiceRestoresTheDisplay := by
  intro x y n s t u hst htu
  refine Display.ext_get fun X Y => ?_
  rw [get_disp_of_drw htu, spriteBitOver_of_drw hst, get_disp_of_drw hst, Bool.xor_assoc, Bool.xor_self, Bool.xor_false]

/-- Settles O28, by where the second draw collides. -/
theorem secondDrawCollidesWithTheFirst : Obligations.SecondDrawCollidesWithTheFirst := by
  intro x y n s t u hst htu
  have hpol : t.policies = s.policies := (exec_keeps hst).policies
  have hone := getV_VF_eq_one_iff_of_drw htu
  have hnone := getV_VF_eq_zero_iff_of_drw htu
  rw [hpol] at hone hnone
  refine ⟨fun X Y hb hunlit => hone.2 ((drawCollides_after_drw_iff hst).2 ⟨X, Y, .inl ⟨hb, hunlit⟩⟩), fun hzero => ?_⟩
  rw [drawCollides_after_zero_drw_iff hst hzero] at hone hnone
  refine ⟨fun hp => hnone.2 ?_, fun hp => ⟨?_, ?_⟩⟩
  · simp [hp]
  · rw [hone, and_iff_right hp]
  · rw [hone, hnone]
    exact (em _).symm

/-- The machine after construction and one draw of the top row of the glyph of 0 (0xF0): its four pixels are lit. -/
def State.glyphRowDrawn : State := ((State.reset.setDisp (Display.blank.set 0 0x0F)).setV VF 0).requestRedraw

theorem exec_drw_reset : exec (.drw 0 1 1) State.reset = .next State.glyphRowDrawn :=
  congrArg Host.Outcome.next (by decide +kernel)

/-- Refutes O29: the next draw of that row clears the four pixels, so the one after it collides with nothing. -/
theorem not_secondDrawOfANonzeroSpriteSetsVF : ¬ Obligations.SecondDrawOfANonzeroSpriteSetsVF := by
  intro h
  have hVF := h 0 1 1 State.glyphRowDrawn _ _ ⟨0, by decide, by decide⟩ rfl rfl
  exact absurd hVF (by decide +kernel)

/-! ### Which steps change the display (R215) -/

/-- Only CLS and DRW may change the display. -/
theorem footprint_disp {i : Instr} {s : State} (h : (footprint i s).disp = true) :
    (∃ z, i = .cls z) ∨ ∃ x y n, i = .drw x y n := by
  cases i
  case cls z => exact .inl ⟨z, rfl⟩
  case drw x y n => exact .inr ⟨x, y, n, rfl⟩
  all_goals cases h

/-- Settles O55: outside an instruction the display is unchanged, and only the footprints of CLS and DRW hold it. -/
theorem onlyClearAndDrawChangeTheDisplay : Obligations.OnlyClearAndDrawChangeTheDisplay := by
  intro s t h hne
  rcases instruction_or_undisturbed h with ⟨i, u, hrun, ⟨rest, -, -, rfl⟩, he⟩ | hu
  · have hfoot := Bool.of_not_eq_false fun hf => hne ((exec_keeps he).disp hf)
    rcases footprint_disp hfoot with ⟨z, rfl⟩ | ⟨x, y, n, rfl⟩
    · exact .inl ⟨z, hrun⟩
    · exact .inr ⟨x, y, n, hrun⟩
  · exact absurd hu.disp hne

end Sys2Proof.Machine
end

section
/-! Timers and keypad (45_timers_keypad.md): the key tests are the skip helper under `pressed`, the timer transfers and the key
wait set one field each. The word of each instruction decodes to it by `decodeWith_encode`. -/

namespace Sys2Proof.Machine

/-! ### The key tests (R230 to R232) -/

/-- A byte is pressed when a key of that index is held; a byte above 15 is the index of none. -/
theorem State.pressed_iff (s : State) (a : Byte) :
    s.pressed a = true ↔ ∃ k : Key, k.val = a.toNat ∧ s.key[k] = true := by
  by_cases ha : a.toNat < 16
  · rw [State.pressed, dif_pos ha]
    constructor
    · exact fun held => ⟨⟨a.toNat, ha⟩, rfl, held⟩
    · rintro ⟨k, hk, held⟩
      obtain rfl : k = ⟨a.toNat, ha⟩ := Fin.ext hk
      exact held
  · rw [State.pressed, dif_neg ha]
    constructor
    · exact fun held => nomatch held
    · rintro ⟨k, hk, -⟩
      exact absurd (hk ▸ k.isLt) ha

/-- Settles O30: the bit is `pressed`, and the two skips are the skip helper under it and under its negation. -/
theorem keySkipsTestTheNamedKey : Obligations.KeySkipsTestTheNamedKey := by
  intro x s b hb
  obtain rfl : b = s.pressed (s.getV x) := Bool.eq_iff_iff.2 (hb.trans (s.pressed_iff _).symm)
  refine ⟨decodeWith_encode (i := .skp x) rfl, decodeWith_encode (i := .sknp x) rfl,
    ⟨_, rfl, ?skp, keeps_skipIf s _⟩, ⟨_, rfl, ?sknp, keeps_skipIf s _⟩⟩
  case skp => simpa using toNat_skipIf_pc s (s.pressed (s.getV x) = true)
  case sknp => simpa using toNat_skipIf_not_pc s (s.pressed (s.getV x) = true)

/-! ### The timer transfers and the key wait (R233 to R236) -/

/-- Settles O31: each transfer is one write, of a register or of a timer. -/
theorem timerTransfersMoveOneByte : Obligations.TimerTransfersMoveOneByte :=
  fun x s => ⟨decodeWith_encode (i := .ldVDt x) rfl, decodeWith_encode (i := .ldDt x) rfl, decodeWith_encode (i := .ldSt x) rfl,
    ⟨_, rfl, s.getV_setV_self x s.dt, keeps_setV s x s.dt⟩, ⟨_, rfl, s.setDt_dt (s.getV x), keeps_setDt s (s.getV x)⟩,
    ⟨_, rfl, s.setSt_st (s.getV x), keeps_setSt s (s.getV x)⟩⟩

/-- Settles O32: the wait sets `M` alone. -/
theorem keyWaitBegins : Obligations.KeyWaitBegins :=
  fun x s => ⟨decodeWith_encode (i := .ldVK x) rfl, _, rfl, s.setMode_mode (.awaitingKey x), keeps_setMode s (.awaitingKey x)⟩

end Sys2Proof.Machine
end

section
/-! Exceptions (60_exceptions.md): the fault record stays true, `Faulted` is absorbing, and an `advance` call always returns. -/

namespace Sys2Proof.Machine

/-! ### The fault record (R251, R252) -/

/-- The address an instruction was fetched from is two before `PC` (R103). -/
theorem State.pcFetch_add_two (s : State) : s.pcFetch + 2 = s.pc := BitVec.sub_add_cancel s.pc 2

/-- What a fault record must say depends on `PC`, the stack, `M` and the policies alone. -/
theorem State.faultTruthful.congr {s t : State} (h : s.faultTruthful) (hpc : t.pc = s.pc) (hstack : t.stack = s.stack)
    (hmode : t.mode = s.mode) (hpol : t.policies = s.policies) : t.faultTruthful := by
  intro f hf
  rw [hpc, hstack, hpol]
  exact h f (hmode.symm.trans hf)

/-- CALL on a stack of 16 entries records a CALL and leaves the stack full (R29, R143). -/
theorem faultTruthful_raiseFault_call {s : State} (nnn : Addr12) (h : s.stack.length = 16) :
    (s.raiseFault .stackOverflow (encode (.call nnn))).faultTruthful := by
  intro f hf
  cases hf
  exact ⟨s.pcFetch_add_two.symm, h, nnn, decodeWith_encode rfl⟩

/-- RET on an empty stack records a RET and leaves the stack empty (R30, R141). -/
theorem faultTruthful_raiseFault_ret {s : State} (z : Nibble) (h : s.stack = []) :
    (s.raiseFault .stackUnderflow (encode (.ret z))).faultTruthful := by
  intro f hf
  cases hf
  exact ⟨s.pcFetch_add_two.symm, h, z, decodeWith_encode rfl⟩

/-- An instruction run in `Running` records no fault, or CALL or RET records its own. The bound on the stack makes a full stack
one of exactly 16 entries. -/
theorem exec_faultTruthful {i : Instr} {s t : State} (h : exec i s = .next t) (hm : s.mode = .running)
    (hdepth : s.stack.length ≤ 16) : t.faultTruthful := by
  cases i
  case call nnn =>
    rcases execCall_cases nnn s with ⟨-, e⟩ | ⟨hfull, e⟩
    · cases h.symm.trans e
      exact faultTruthful_of_running hm
    · cases h.symm.trans e
      exact faultTruthful_raiseFault_call nnn (le_antisymm hdepth hfull)
  case ret z =>
    rcases execRet_cases z s with ⟨l, a, -, e⟩ | ⟨hnil, e⟩
    · cases h.symm.trans e
      exact faultTruthful_of_running hm
    · cases h.symm.trans e
      exact faultTruthful_raiseFault_ret z hnil
  case ldVK x =>
    cases h
    intro f hf
    cases hf
  all_goals exact faultTruthful_of_running (((exec_keeps h).mode rfl).trans hm)

/-- A key press ends a wait or leaves `M` as it was, and records no fault (R126). -/
theorem keyDown_faultTruthful {s : State} (k : Key) (h : s.faultTruthful) : (s.keyDown k).faultTruthful := by
  rcases keyDown_cases s k with ⟨r, -, e⟩ | ⟨-, e⟩
  · rw [e]
    exact faultTruthful_of_running rfl
  · rw [e]
    exact h.congr rfl rfl rfl rfl

/-- Settles O54, by the kind of the move: only an instruction can fault, and every other move leaves `PC`, the stack and a
recorded fault as they were. -/
theorem faultRecordStaysTruthful : Obligations.FaultRecordStaysTruthful := by
  intro s t hinv htrue h
  cases move_of_step h with
  | instruction i u hrun hu he =>
    obtain ⟨rest, -, -, rfl⟩ := hu
    exact exec_faultTruthful he hrun.1.1 hinv.depth
  | tick rest htick ht => subst ht; exact htrue.congr rfl rfl rfl rfl
  | press c k rest hserve hc ht => subst ht; exact keyDown_faultTruthful k (htrue.congr rfl rfl rfl rfl)
  | release c k rest hserve hc ht => subst ht; exact htrue.congr rfl rfl rfl rfl
  | quiet hq => exact htrue.congr hq.pc hq.stack hq.mode hq.policies

/-! ### `Faulted` is absorbing (R253, R36) -/

theorem isFaulted_of_faulted {s : State} {f : FaultRecord} (h : s.mode = .faulted f) : s.isFaulted = true := by
  rw [State.isFaulted, h]

/-- In `Faulted` an `advance` call returns `false` at once, and all it does beside is to close loading (R123, R283). -/
theorem State.beginAdvance_of_faulted {s : State} (d : Rat) (order : List Slot) (hf : s.isFaulted = true) :
    s.beginAdvance d order = s.closeLoading.emit (.redrawFlag false) := by
  rcases beginAdvance_cases s d order with ⟨-, e⟩ | ⟨hf', -⟩
  · exact e
  · cases hf.symm.trans hf'

/-- In `Faulted` a key press does nothing more than set its key (R126). -/
theorem State.keyDown_of_faulted {s : State} {f : FaultRecord} (k : Key) (hm : s.mode = .faulted f) :
    s.keyDown k = s.setKey k true :=
  State.keyDown_of_not_awaitingKey k fun _ hr => nomatch hm.symm.trans hr

/-- A host call served in `Faulted`, other than a load, changes the keypad and the host's side alone. -/
theorem serve_of_faulted {s t : State} {c : HostCall} {f : FaultRecord} (hm : s.mode = .faulted f)
    (hc : ∀ bytes, c ≠ .loadProgram bytes) (h : s.serve c = .next t) :
    t = { s with key := t.key, mayLoad := t.mayLoad, outputs := t.outputs } := by
  rcases serve_cases h with ⟨bytes, hload, -, -⟩ | ⟨d, order, -, -, rfl⟩ | ⟨k, -, rfl⟩ | ⟨k, -, rfl⟩ | rfl | ⟨o, rfl⟩
  · exact absurd hload (hc bytes)
  · rw [State.beginAdvance_of_faulted d order (isFaulted_of_faulted hm)]; rfl
  · rw [State.keyDown_of_faulted k hm]; rfl
  all_goals rfl

/-- A step from `Faulted`, other than to serve a load, ends an `advance` call, serves a host call or changes nothing. -/
theorem step_of_faulted {s t : State} {f : FaultRecord} (hm : s.mode = .faulted f)
    (hload : ∀ bytes, ¬ s.aboutToServe (.loadProgram bytes)) (h : step s = .next t) :
    t = { s with
      key := t.key, slots := t.slots, host := t.host, mayLoad := t.mayLoad, outputs := t.outputs, redraw := t.redraw } := by
  have hf : s.isFaulted = true := isFaulted_of_faulted hm
  rcases step_cases h with ⟨i, u, -, ⟨-, -, hf', -⟩, -⟩ | ⟨-, -, -, hf', -⟩ | ⟨-, -, hf', -⟩ | ⟨l, -, -, rfl⟩ |
    ⟨c, rest, hsl, hh, hserve⟩ | ⟨-, rfl⟩
  · cases hf.symm.trans hf'
  · cases hf.symm.trans hf'
  · cases hf.symm.trans hf'
  · rfl
  · have hc : ∀ bytes, c ≠ .loadProgram bytes := by
      rintro bytes rfl
      exact hload bytes ⟨hsl, rest, hh⟩
    rw [serve_of_faulted (s := s.setHost rest) hm hc hserve]
    rfl
  · rfl

/-- In `Faulted` a step that serves `advance(d)` with `0 ≤ d` returns `false` (R123). -/
theorem step_of_advance_of_faulted {s : State} {d : Rat} {order : List Slot} {rest : List HostCall} (hsl : s.slots = none)
    (hh : s.host = .advance d order :: rest) (hd : 0 ≤ d) (hf : s.isFaulted = true) :
    step s = .next ((s.setHost rest).closeLoading.emit (.redrawFlag false)) := by
  have hserve : (s.setHost rest).serve (.advance d order) = .next ((s.setHost rest).beginAdvance d order) :=
    if_neg (not_lt.2 hd)
  rw [step_of_call hsl hh, hserve, State.beginAdvance_of_faulted (s := s.setHost rest) d order hf]

/-- Settles O41: the frame of a step from `Faulted`, and what an `advance` call gives there. -/
theorem faultedIsAbsorbing : Obligations.FaultedIsAbsorbing := by
  intro f s t hm hload h
  constructor
  · rw [step_of_faulted hm hload h]
  · intro d order rest hsl hh hd
    cases h.symm.trans (step_of_advance_of_faulted hsl hh hd (isFaulted_of_faulted hm))
    exact ⟨rfl, hsl, rfl, rfl⟩

/-! ### An `advance` call always returns (R255) -/

/-- An instruction gives the host at most an event, after what was given before (R105). -/
theorem exec_outputs {i : Instr} {s t : State} (h : exec i s = .next t) : ∃ events, t.outputs = s.outputs ++ events := by
  cases i
  case unknown w => cases h; exact ⟨_, rfl⟩
  all_goals exact ⟨[], by rw [(exec_keeps h).outputs rfl, List.append_nil]⟩

/-- A step inside an `advance` call serves no host call, and takes back nothing given to the host. -/
theorem step_in_advance {s t : State} {l : List Slot} (hsl : s.slots = some l) (h : step s = .next t) :
    t.host = s.host ∧ ∃ events, t.outputs = s.outputs ++ events := by
  rcases step_cases h with ⟨i, u, -, ⟨rest, -, -, rfl⟩, he⟩ | ⟨-, rest, -, -, rfl⟩ | ⟨rest, -, -, rfl⟩ | ⟨l', -, -, rfl⟩ |
    ⟨c, rest, hnone, -, -⟩ | ⟨-, rfl⟩
  · obtain ⟨events, hout⟩ := exec_outputs he
    exact ⟨(exec_keeps he).host, events, hout⟩
  · exact ⟨rfl, [], (List.append_nil _).symm⟩
  · exact ⟨rfl, [], (List.append_nil _).symm⟩
  · exact ⟨rfl, _, rfl⟩
  · cases hsl.symm.trans hnone
  · exact ⟨rfl, [], (List.append_nil _).symm⟩

/-- A run of `k + 1` steps is a step and then a run of `k`. -/
theorem run_succ_of_step {s t : State} (k : Nat) (h : step s = .next t) :
    Sys2Proof.core.run (k + 1) s = Sys2Proof.core.run k t := by
  simp only [Host.Core.run, show Sys2Proof.core.step s = .next t from h]

/-- The `advance` call in progress in `s` has ended in `t`: it returned a flag, and the host's further calls are still to come. -/
def AdvanceReturned (s t : State) : Prop :=
  t.slots = none ∧ t.host = s.host ∧ ∃ flag events, t.outputs = s.outputs ++ events ++ [.redrawFlag flag]

theorem advanceReturned_endAdvance (s : State) : AdvanceReturned s s.endAdvance :=
  ⟨rfl, rfl, s.redraw, [], by rw [List.append_nil]; rfl⟩

/-- What returns a call after one of its steps returns it from before that step. -/
theorem AdvanceReturned.of_step {s t u : State} {l : List Slot} (hsl : s.slots = some l) (h : step s = .next t)
    (hu : AdvanceReturned t u) : AdvanceReturned s u := by
  obtain ⟨hhost, events, hout⟩ := step_in_advance hsl h
  obtain ⟨hslots, hhost', flag, events', hout'⟩ := hu
  exact ⟨hslots, hhost'.trans hhost, flag, events ++ events', by rw [hout', hout, List.append_assoc s.outputs]⟩

/-- Settles O45, by induction on the slots left: a step ends the call or uses up one slot. -/
theorem advanceAlwaysReturns : Obligations.AdvanceAlwaysReturns := by
  intro l s hsl
  change ∃ k ≤ l.length + 1, ∃ t, Sys2Proof.core.run k s = .next t ∧ AdvanceReturned s t
  induction l generalizing s with
  | nil => exact ⟨1, le_rfl, _, run_succ_of_step 0 (step_of_end hsl (.inl rfl)), advanceReturned_endAdvance s⟩
  | cons slot rest ih =>
    cases hf : s.isFaulted with
    | true =>
      exact ⟨1, Nat.le_add_left _ _, _, run_succ_of_step 0 (step_of_end hsl (.inr hf)), advanceReturned_endAdvance s⟩
    | false =>
      obtain ⟨t, hstep, hslots, -⟩ := (advanceReturnsTheRedrawFlag _ s hsl).2 (List.cons_ne_nil _ _) hf
      obtain ⟨k, hk, u, hrun, hu⟩ := ih t hslots
      exact ⟨k + 1, Nat.succ_le_succ hk, u, (run_succ_of_step k hstep).trans hrun, hu.of_step hsl hstep⟩

end Sys2Proof.Machine
end

section
/-! Reset and hazards (70_reset_and_hazards.md): the program load, the remainders of the time carried from call to call, and the
end state of a run. -/

namespace Sys2Proof.Machine

/-! ### `load_program` (R282, R283) -/

/-- While loading is open, a load closes it and copies the program or refuses it (R282). -/
theorem step_of_load {s : State} {bytes : List Byte} {rest : List HostCall} (hsl : s.slots = none)
    (hh : s.host = .loadProgram bytes :: rest) (hm : s.mayLoad = true) :
    step s = .next ((s.setHost rest).closeLoading.loadProgram bytes) :=
  (step_of_call hsl hh).trans (if_pos hm)

/-- Once loading is closed, a load has no move (R283). -/
theorem step_of_load_out_of_turn {s : State} {bytes : List Byte} {rest : List HostCall} (hsl : s.slots = none)
    (hh : s.host = .loadProgram bytes :: rest) (hm : s.mayLoad = false) : step s = .refused .loadOutOfTurn :=
  (step_of_call hsl hh).trans (if_neg (ne_true_of_eq_false hm))

/-- A load changes memory and tells the host, and nothing else. -/
theorem State.loadProgram_eq (s : State) (bytes : List Byte) :
    s.loadProgram bytes = { s with mem := (s.loadProgram bytes).mem, outputs := (s.loadProgram bytes).outputs } := by
  rcases loadProgram_cases s bytes with ⟨-, e⟩ | ⟨-, e⟩
  · rw [e, State.writeBytes_eq]; rfl
  · rw [e]; rfl

@[simp] theorem State.loadProgram_host (s : State) (bytes : List Byte) : (s.loadProgram bytes).host = s.host := by
  rw [State.loadProgram_eq]

@[simp] theorem State.loadProgram_mayLoad (s : State) (bytes : List Byte) : (s.loadProgram bytes).mayLoad = s.mayLoad := by
  rw [State.loadProgram_eq]

/-- A program that fits is written from 0x200 up (R282). -/
theorem State.loadProgram_of_le {s : State} {bytes : List Byte} (h : bytes.length ≤ 3584) :
    s.loadProgram bytes = (s.writeBytes 0x200 bytes).emit (.loadResult true) := by
  rcases loadProgram_cases s bytes with ⟨-, e⟩ | ⟨hlong, -⟩
  · exact e
  · exact absurd h (Nat.not_le.2 hlong)

/-- A program that does not fit is refused (R282). -/
theorem State.loadProgram_of_gt {s : State} {bytes : List Byte} (h : 3584 < bytes.length) :
    s.loadProgram bytes = s.emit (.loadResult false) := by
  rcases loadProgram_cases s bytes with ⟨hfit, -⟩ | ⟨-, e⟩
  · exact absurd hfit (Nat.not_le.2 h)
  · exact e

/-- The cells below 0x200 and those above the program keep their bytes. -/
theorem State.readMem_writeBytes_outside (s : State) {bytes : List Byte} (hl : bytes.length ≤ 3584) {c : Nat} (hc : c < 0x1000)
    (hout : c < 0x200 ∨ 0x200 + bytes.length ≤ c) : (s.writeBytes 0x200 bytes).readMem c = s.readMem c := by
  apply State.readMem_writeBytes_of_ne
  intro k hk
  rw [cellOf_eq_self hc, cellOf_eq_self (by omega)]
  omega

/-- Settles O49: a load out of turn has no move, and one in turn is the copy of a program that fits, or a refusal. -/
theorem loadProgramCopiesOrRefuses : Obligations.LoadProgramCopiesOrRefuses := by
  intro bytes rest s hsl hh
  refine ⟨step_of_load_out_of_turn hsl hh, fun hm => ⟨_, step_of_load hsl hh hm, ?_, State.loadProgram_host _ bytes,
    State.loadProgram_mayLoad _ bytes, fun hfit => ?_, fun hlong => ?_⟩⟩
  · rw [State.loadProgram_eq]; rfl
  · rw [State.loadProgram_of_le hfit]
    refine ⟨?_, fun k hk => State.readMem_writeBytes _ 0x200 k bytes hk (by omega),
      fun c hc hout => State.readMem_writeBytes_outside _ hfit hc hout⟩
    rw [State.writeBytes_eq]; rfl
  · rw [State.loadProgram_of_gt hlong]
    exact ⟨rfl, rfl⟩

/-! ### The remainders carried (R290) -/

/-- From an accumulator within its period, the periods counted are the whole periods in the accumulator and the durations. -/
theorem countPeriods_spec {period : Rat} (hp : 0 < period) {acc : Rat} {ds : List Rat} (h0 : 0 ≤ acc) (h1 : acc < period)
    (hds : ∀ d ∈ ds, 0 ≤ d) :
    (countPeriods period acc ds : Rat) * period ≤ acc + ds.sum ∧
      acc + ds.sum < (countPeriods period acc ds + 1 : Rat) * period := by
  induction ds generalizing acc with
  | nil => simpa [countPeriods] using And.intro h0 h1
  | cons d ds ih =>
    obtain ⟨hd, hds⟩ := List.forall_mem_cons.1 hds
    obtain ⟨hsplit, hr0, hr1⟩ := splitTime_spec hp (add_nonneg h0 hd)
    obtain ⟨hlow, hhigh⟩ := ih hr0 hr1 hds
    simp only [countPeriods, List.sum_cons, Nat.cast_add, add_mul] at hlow hhigh ⊢
    exact ⟨by linarith, by linarith⟩

/-- Settles O46: the empty accumulator is within its period. -/
theorem carriedRemaindersLoseNoPeriod : Obligations.CarriedRemaindersLoseNoPeriod := by
  intro period ds hp hds
  simpa only [zero_add] using countPeriods_spec hp le_rfl hp hds

/-! ### The end of a run (R291, R133) -/

theorem Reaches.trans {s t u : State} (hst : Reaches s t) (htu : Reaches t u) : Reaches s u := by
  obtain ⟨a, ha⟩ := hst
  obtain ⟨b, hb⟩ := htu
  exact ⟨a + b, (run_add a b ha).trans hb⟩

theorem reaches_of_step {s t : State} (h : step s = .next t) : Reaches s t := ⟨1, run_succ_of_step 0 h⟩

/-- A run that has ended stays where it is (R100), so every end state is where all the steps together lead. -/
theorem EndsIn.unique {s t t' : State} (h : EndsIn s t) (h' : EndsIn s t') : t' = t := by
  obtain ⟨⟨a, ha⟩, hidle⟩ := h
  obtain ⟨⟨b, hb⟩, hidle'⟩ := h'
  have hab : Sys2Proof.core.run (a + b) s = .next t := (run_add a b ha).trans (run_of_idle b hidle)
  have hba : Sys2Proof.core.run (b + a) s = .next t' := (run_add b a hb).trans (run_of_idle a hidle')
  rw [Nat.add_comm b a] at hba
  cases hab.symm.trans hba
  rfl

/-- The `advance` call in progress, if there is one, comes to its end with the host's further calls still to come (R255). -/
theorem reaches_between_calls (s : State) : ∃ t, Reaches s t ∧ t.slots = none ∧ t.host = s.host := by
  cases hsl : s.slots with
  | none => exact ⟨s, ⟨0, rfl⟩, hsl, rfl⟩
  | some l =>
    obtain ⟨k, -, t, hrun, hslots, hhost, -⟩ := advanceAlwaysReturns l s hsl
    exact ⟨t, ⟨k, hrun⟩, hslots, hhost⟩

/-- Serving a call leaves the calls after it as they are. -/
theorem serve_host {s t : State} {c : HostCall} (h : s.serve c = .next t) : t.host = s.host := by
  rcases serve_cases h with ⟨bytes, -, -, rfl⟩ | ⟨d, order, -, -, rfl⟩ | ⟨k, -, rfl⟩ | ⟨k, -, rfl⟩ | rfl | ⟨o, rfl⟩
  · exact State.loadProgram_host _ bytes
  · rcases beginAdvance_cases s d order with ⟨-, e⟩ | ⟨-, e⟩ <;> rw [e] <;> rfl
  · rw [State.keyDown_eq]
  all_goals rfl

/-- No call of a script is refused (R133). -/
theorem exists_serve_eq_next {c : HostCall} (s : State) (hc : c.inScript) : ∃ t, s.serve c = .next t := by
  cases c with
  | loadProgram bytes => exact hc.elim
  | advance d order => exact ⟨_, if_neg (not_lt.2 hc)⟩
  | hostKeyDown symbol =>
    cases hk : Config.keymap symbol with
    | some k => exact ⟨_, serve_of_presses s (.inr ⟨symbol, rfl, hk⟩)⟩
    | none => exact ⟨_, serve_of_unmapped s hk (.inl rfl)⟩
  | hostKeyUp symbol =>
    cases hk : Config.keymap symbol with
    | some k => exact ⟨_, serve_of_releases s (.inr ⟨symbol, rfl, hk⟩)⟩
    | none => exact ⟨_, serve_of_unmapped s hk (.inr rfl)⟩
  | keyDown k => exact ⟨_, rfl⟩
  | keyUp k => exact ⟨_, rfl⟩
  | readDisplay => exact ⟨_, rfl⟩
  | readDebugSnapshot => exact ⟨_, rfl⟩

/-- A script of calls that may follow the load ends, by induction on the script: the `advance` in progress returns, and the next
call is served. -/
theorem exists_endsIn_of_script (calls : List HostCall) (s : State) (hh : s.host = calls) (hcalls : ∀ c ∈ calls, c.inScript) :
    ∃ t, EndsIn s t := by
  induction calls generalizing s with
  | nil =>
    obtain ⟨t, hst, hslots, hhost⟩ := reaches_between_calls s
    exact ⟨t, hst, hslots, hhost.trans hh⟩
  | cons c calls ih =>
    obtain ⟨hc, hcalls⟩ := List.forall_mem_cons.1 hcalls
    obtain ⟨t, hst, hslots, hhost⟩ := reaches_between_calls s
    obtain ⟨u, hserve⟩ := exists_serve_eq_next (t.setHost calls) hc
    have hstep : step t = .next u := (step_of_call hslots (hhost.trans hh)).trans hserve
    obtain ⟨v, huv, hidle⟩ := ih u (serve_host hserve) hcalls
    exact ⟨v, hst.trans ((reaches_of_step hstep).trans huv), hidle⟩

/-- The run of every program and script ends: the load is served, and then the script. -/
theorem exists_endsIn_runStart (p : Policies) (bytes : List Byte) {calls : List HostCall} (hcalls : ∀ c ∈ calls, c.inScript) :
    ∃ t, EndsIn (runStart p bytes calls) t := by
  have hload : step (runStart p bytes calls) = .next (((State.construct p).setHost calls).closeLoading.loadProgram bytes) :=
    step_of_load rfl rfl rfl
  have hhost := State.loadProgram_host ((State.construct p).setHost calls).closeLoading bytes
  obtain ⟨t, ht, hidle⟩ := exists_endsIn_of_script calls _ hhost hcalls
  exact ⟨t, (reaches_of_step hload).trans ht, hidle⟩

/-- Settles O40: the run ends, two ends of it are one state, and an idle machine does nothing. -/
theorem everyRunHasOneEndState : Obligations.EveryRunHasOneEndState := by
  refine ⟨fun p bytes calls hcalls => ?_, fun s hsl hh => step_of_idle ⟨hsl, hh⟩⟩
  obtain ⟨t, ht⟩ := exists_endsIn_runStart p bytes hcalls
  exact ⟨t, ht, fun _ ht' => ht.unique ht'⟩

end Sys2Proof.Machine
end
